-- ==== Sys2Proof/Word.lean ====
section
/-!
DEFINITION. The word types of the block, the eight-word HashState and the command descriptor
(spec/00_scope.md R9, R11, R13, R14; spec/10_state.md R31; spec/30_encoding.md R80).
-/
namespace Sys2Proof

/-- A byte (R14: "A byte is 8 bits"). -/
abbrev Byte := BitVec 8

/-- A native word of unit 0, `w = 32` (R9). -/
abbrev Word32 := BitVec 32

/-- A native word of unit 1, `w = 64` (R9). -/
abbrev Word64 := BitVec 64

/-- A command descriptor, one value of `DW = 160` bits (R11, R80). -/
abbrev Descriptor := BitVec 160

/-- `H[0..7]`, "an ordered sequence of 8 words" (R31), of width `w`. -/
structure HashState (w : Nat) where
  h0 : BitVec w
  h1 : BitVec w
  h2 : BitVec w
  h3 : BitVec w
  h4 : BitVec w
  h5 : BitVec w
  h6 : BitVec w
  h7 : BitVec w
deriving DecidableEq, Repr

/-- The words of a HashState in order, `H[0]` first. -/
def HashState.words {w : Nat} (h : HashState w) : List (BitVec w) :=
  [h.h0, h.h1, h.h2, h.h3, h.h4, h.h5, h.h6, h.h7]

end Sys2Proof
end

