-- ==== Sys2Proof/Syntax.lean ====
section
/-!
DEFINITION. The sixteen commands of SHB-CMD version 1 (spec/30_encoding.md R83). A constructor holds
the operands its format reads (R82), as the natural numbers the rules compute with (R23, R84): `a` is
`D[95:32]`, `l`, `i` or `n` is `D[159:96]`. A field a format ignores is no part of the command.
-/
namespace Sys2Proof

/-- A decoded command. -/
inductive Instr where
  /-- RESET.256, format U (R102). -/
  | reset256
  /-- RESET.512, format U (R103). -/
  | reset512
  /-- RESET.TUP, format U (R208). -/
  | resetTup
  /-- INGEST.256 A, L, format AL (R126). -/
  | ingest256 (a l : Nat)
  /-- INGEST.512 A, L, format AL (R127). -/
  | ingest512 (a l : Nat)
  /-- FINALIZE.256, format U (R143). -/
  | finalize256
  /-- FINALIZE.512, format U (R144). -/
  | finalize512
  /-- FINALIZE.TUP, format U (R206). -/
  | finalizeTup
  /-- DIGEST.256, format U (R104). -/
  | digest256
  /-- DIGEST.512, format U (R105). -/
  | digest512
  /-- DIGEST.TUP, format U (R207). -/
  | digestTup
  /-- NEXTDATA A, L, format AL (R205). -/
  | nextdata (a l : Nat)
  /-- LENC n, format N (R203). -/
  | lenc (n : Nat)
  /-- RENC n, format N (R204). -/
  | renc (n : Nat)
  /-- LOADW.32 A, i, format AI (R121). -/
  | loadw32 (a i : Nat)
  /-- LOADW.64 A, i, format AI (R122). -/
  | loadw64 (a i : Nat)
deriving DecidableEq, Repr

end Sys2Proof
end

