-- ==== Sys2Proof/WellFormed.lean ====
section
/-!
DEFINITION. Which commands a descriptor can carry: each operand is a 64-bit field read as an unsigned
number, `AW = LW = 64` (spec/00_scope.md R11; spec/30_encoding.md R80, R84).
-/
namespace Sys2Proof

/-- The operand fits its 64-bit field. -/
def Instr.fits (n : Nat) : Bool := n < 2 ^ 64

/-- Every operand of the command fits its field. -/
def Instr.wellFormed : Instr → Bool
  | .reset256 => true
  | .reset512 => true
  | .resetTup => true
  | .ingest256 a l => fits a && fits l
  | .ingest512 a l => fits a && fits l
  | .finalize256 => true
  | .finalize512 => true
  | .finalizeTup => true
  | .digest256 => true
  | .digest512 => true
  | .digestTup => true
  | .nextdata a l => fits a && fits l
  | .lenc n => fits n
  | .renc n => fits n
  | .loadw32 a i => fits a && fits i
  | .loadw64 a i => fits a && fits i

end Sys2Proof
end

