-- ==== Sys2Proof/Decode.lean ====
section
/-!
DEFINITION. The command descriptor: its fields (spec/30_encoding.md R80, R81), the decoder (R83, R86,
R87) and, after it, the encoder. Decoding is total on the `2^160` descriptor values; the order in which
bytes carry a descriptor is outside the block (spec/20_memory.md R65).
-/
namespace Sys2Proof

/-- `CW = D[31:0]` (R80). -/
def Descriptor.cw (d : Descriptor) : BitVec 32 := d.extractLsb' 0 32

/-- `A = D[95:32]`, an unsigned number (R80, R84). -/
def Descriptor.a (d : Descriptor) : Nat := (d.extractLsb' 32 64).toNat

/-- `L = D[159:96]`, an unsigned number (R80, R84). -/
def Descriptor.l (d : Descriptor) : Nat := (d.extractLsb' 96 64).toNat

/-- `op = CW[7:0]` (R81). -/
def cwOp (cw : BitVec 32) : BitVec 8 := cw.extractLsb' 0 8

/-- `unit = CW[9:8]` (R81). -/
def cwUnit (cw : BitVec 32) : BitVec 2 := cw.extractLsb' 8 2

/-- `rsv = CW[31:10]` (R81). -/
def cwRsv (cw : BitVec 32) : BitVec 22 := cw.extractLsb' 10 22

/-- Why a descriptor carries no command, in the words of R86. All four are answered ILLEGAL_CMD; where
two apply the name is that of the earlier one (log 11). -/
inductive Illegal where
  /-- "`rsv` not zero: illegal, whatever `op` and `unit` are". -/
  | reservedBits
  /-- "`unit` = 3: illegal for every `op`". -/
  | reservedUnit
  /-- "`op` = 0x00 or `op` in 0x09 to 0xFF: illegal". -/
  | undefinedOp
  /-- "a defined `op` with a unit it has no row for". -/
  | noRow
deriving DecidableEq, Repr

/-- The row of R83 that an operation and a unit (0, 1 or 2) name, with its operands. -/
def decodeRow (op unit a l : Nat) : Except Illegal Instr :=
  match op, unit with
  | 1, 0 => .ok .reset256
  | 1, 1 => .ok .reset512
  | 1, 2 => .ok .resetTup
  | 2, 0 => .ok (.ingest256 a l)
  | 2, 1 => .ok (.ingest512 a l)
  | 3, 0 => .ok .finalize256
  | 3, 1 => .ok .finalize512
  | 3, 2 => .ok .finalizeTup
  | 4, 0 => .ok .digest256
  | 4, 1 => .ok .digest512
  | 4, 2 => .ok .digestTup
  | 5, 2 => .ok (.nextdata a l)
  | 6, 2 => .ok (.lenc l)
  | 7, 2 => .ok (.renc l)
  | 8, 0 => .ok (.loadw32 a l)
  | 8, 1 => .ok (.loadw64 a l)
  | _, _ => if 1 ≤ op ∧ op ≤ 8 then .error .noRow else .error .undefinedOp

/-- `Decode : 2^160 -> Command + Illegal` (R87). -/
def decode (d : Descriptor) : Except Illegal Instr :=
  if cwRsv d.cw ≠ 0 then .error .reservedBits
  else if cwUnit d.cw = 3 then .error .reservedUnit
  else decodeRow (cwOp d.cw).toNat (cwUnit d.cw).toNat d.a d.l

/-- What the decoder reads from a command word `w` of `nbits` bits, every higher bit of the descriptor
being 0 (the numbering of spec/opcode_table.json: bit 0 of `CW` is bit 0 of `D`). -/
def decodeTableWord (nbits w : Nat) : Option Instr :=
  match decode (BitVec.ofNat 160 (w % 2 ^ nbits)) with
  | .ok i => some i
  | .error _ => none

/-- The command word of each row, from the `CW` column of R83. -/
def commandWord : Instr → BitVec 32
  | .reset256 => 0x00000001
  | .reset512 => 0x00000101
  | .resetTup => 0x00000201
  | .ingest256 _ _ => 0x00000002
  | .ingest512 _ _ => 0x00000102
  | .finalize256 => 0x00000003
  | .finalize512 => 0x00000103
  | .finalizeTup => 0x00000203
  | .digest256 => 0x00000004
  | .digest512 => 0x00000104
  | .digestTup => 0x00000204
  | .nextdata _ _ => 0x00000205
  | .lenc _ => 0x00000206
  | .renc _ => 0x00000207
  | .loadw32 _ _ => 0x00000008
  | .loadw64 _ _ => 0x00000108

/-- The address operand of a command; "a field the format does not read assembles to zero" (R91). -/
def operandA : Instr → Nat
  | .ingest256 a _ => a
  | .ingest512 a _ => a
  | .nextdata a _ => a
  | .loadw32 a _ => a
  | .loadw64 a _ => a
  | .reset256 | .reset512 | .resetTup | .finalize256 | .finalize512 | .finalizeTup => 0
  | .digest256 | .digest512 | .digestTup | .lenc _ | .renc _ => 0

/-- The length operand of a command: a byte count, a word index or a number (R80, R82). -/
def operandL : Instr → Nat
  | .ingest256 _ l => l
  | .ingest512 _ l => l
  | .nextdata _ l => l
  | .lenc n => n
  | .renc n => n
  | .loadw32 _ i => i
  | .loadw64 _ i => i
  | .reset256 | .reset512 | .resetTup | .finalize256 | .finalize512 | .finalizeTup => 0
  | .digest256 | .digest512 | .digestTup => 0

/-- A descriptor from its three fields, `L`, `A`, `CW` from the top (R80). -/
def descriptor (l a : Nat) (cw : BitVec 32) : Descriptor :=
  BitVec.ofNat 64 l ++ BitVec.ofNat 64 a ++ cw

/-- The descriptor of a command (R80, R83, R91). -/
def encode (i : Instr) : Descriptor := descriptor (operandL i) (operandA i) (commandWord i)

end Sys2Proof
end

