-- ==== Sys2Proof/Machine/Bytes.lean ====
section
/-!
DEFINITION. Byte sequences and the conversions between bytes and numbers, all big-endian
(spec/00_scope.md R14, R15; spec/20_memory.md R63, R64), with the length encoders
(spec/45_tuple_encoding.md R200 to R202) and the host's hexadecimal form (spec/30_encoding.md R94).
-/
namespace Sys2Proof.Machine

/-- `BE(s)`: the first byte is the most significant (R15). -/
def be (s : List Byte) : Nat :=
  s.foldl (fun acc b => acc * 256 + b.toNat) 0

/-- `ToBE_n(v)`: the `n` bytes of `v`, most significant first (R15). Where `v` needs more than `n`
bytes, a case R15 does not define, it is the low `n` bytes (log 9). -/
def toBE : Nat → Nat → List Byte
  | 0, _ => []
  | n + 1, v => BitVec.ofNat 8 (v / 256 ^ n) :: toBE n v

/-- `zeros(n)` (R14). -/
def zeros (n : Nat) : List Byte := List.replicate n 0

/-- The length of `MinBE(n)`, `floor(log_256 n) + 1` for `n >= 1` and 1 for `n = 0` (R200). -/
def minBELen (n : Nat) : Nat := n.log2 / 8 + 1

/-- `MinBE(n)`, "the minimal big-endian byte encoding of `n`" (R200). -/
def minBE (n : Nat) : List Byte := toBE (minBELen n) n

/-- `leftEncode(n) = [ len(MinBE(n)) ] ++ MinBE(n)` (R201). -/
def leftEncode (n : Nat) : List Byte := BitVec.ofNat 8 (minBE n).length :: minBE n

/-- `rightEncode(n) = MinBE(n) ++ [ len(MinBE(n)) ]` (R202). -/
def rightEncode (n : Nat) : List Byte := minBE n ++ [BitVec.ofNat 8 (minBE n).length]

/-- `LoadBE(ws, s, i)`: the word at byte offset `i x ws`, the index counting words (R120). -/
def loadBE (ws : Nat) (s : List Byte) (i : Nat) : Nat := be ((s.drop (i * ws)).take ws)

/-- One hexadecimal digit, lowercase (R94). -/
def hexDigit (n : Nat) : Char :=
  (['0', '1', '2', '3', '4', '5', '6', '7', '8', '9', 'a', 'b', 'c', 'd', 'e', 'f'] : List Char).getD n '0'

/-- `toHexString()`, computed by the host from a DIGEST payload: two characters a byte, the high four
bits first (R94). It is no part of the block. -/
def toHexString (p : List Byte) : List Char :=
  p.flatMap fun b => [hexDigit (b.toNat / 16), hexDigit (b.toNat % 16)]

end Sys2Proof.Machine
end

