-- ==== Sys2Proof/Config.lean ====
section
/-!
DEFINITION. What an implementation of the block fixes: the host-side parameters of R11, the parameters
that stay open (R12; `DLEN(1)`, spec/92_eei_decisions.md D3) and the external primitive's open answer
(spec/00_scope.md R10 to R12; spec/45_tuple_encoding.md R210, R211).
-/
namespace Sys2Proof

/-- `AW`: a caller-memory address has 64 bits (R11); addresses are `0 .. 2^64 - 1` (R60). -/
abbrev Config.addressSpace : Nat := 2 ^ 64

/-- An event on the port to the external primitive (R210). -/
inductive XofEvent where
  /-- `XReset`: the primitive's reset. -/
  | xReset
  /-- `XAbsorb(bytes)`: one call of the primitive's streaming byte ingestion. -/
  | xAbsorb (bytes : List Byte)
  /-- `XFinalize`: the primitive's finalize. -/
  | xFinalize
  /-- `XRead`: one digest extraction. -/
  | xRead
deriving DecidableEq, Repr

/-- A run of caller-memory addresses `[base, base + size)` the block may not read. -/
structure Hole where
  base : Nat
  size : Nat
deriving DecidableEq, Repr

/-- The constructor parameters of the tuple unit, static on the side-band of the XOF port (R211, R43). -/
structure TupleParams where
  /-- `TUP_OUTLEN_BYTES`, "natural number below 2^61" (R12). -/
  outlenBytes : Fin (2 ^ 61)
  /-- `TUP_CUSTOM` (R12); no command reads its bytes (R211). -/
  custom : List Byte
deriving DecidableEq, Repr

/-- The named parameters R12 and D3 leave open, fixed when the instance is made and changed by no command
(R43). DESIGN CHOICE (log 4): they are a field of the machine's state, so a claim about every state
is a claim about every choice of them. -/
structure Params where
  /-- `TUP_OUTLEN_BYTES` and `TUP_CUSTOM`. -/
  tup : TupleParams
  /-- `MEM_VALID` is false exactly on these runs (log 5). -/
  holes : List Hole
  /-- `IV256`. -/
  iv256 : HashState 32
  /-- `IV512`. -/
  iv512 : HashState 64
  /-- `DLEN(1)`, the digest length of unit 1 in bytes, a prefix of the 64 bytes of the serialised state:
  "`IV512` and `DLEN(1)` stay parameters" with the default 28 (D3, U7, R10, R47; log 13). -/
  dlen512 : Fin 65
deriving DecidableEq, Repr

/-- `XofDigest` (R12, R207): what the external primitive returns to a digest read, an open function
of the event history, for the parameters it was handed on the side-band (R211). A free value: it
has no body, and nothing can be proved of its value or its length (U5; log 6). -/
opaque Config.xofDigest : TupleParams → List XofEvent → List Byte

end Sys2Proof
end

