-- ==== Sys2Proof/Machine/Compress.lean ====
section
/-!
DEFINITION. The two block compression functions (spec/43_sha256_compress.md R160 to R168;
spec/44_sha512_compress.md R180 to R188) over the word arithmetic of spec/00_scope.md R17 to R20.
The schedule, the rounds and the feed-forward are written once, for both widths.
-/
namespace Sys2Proof.Machine

/-- `ROTR_w(x, n)`, by R20's own formula, so that `n = 0` is no special case. -/
def rotr {w : Nat} (x : BitVec w) (n : Nat) : BitVec w :=
  BitVec.ofNat w (x.toNat / 2 ^ n + x.toNat % 2 ^ n * 2 ^ (w - n))

/-- `SHR_w(x, n) = floor(x / 2^n)` (R19). -/
def shr {w : Nat} (x : BitVec w) (n : Nat) : BitVec w := BitVec.ofNat w (x.toNat / 2 ^ n)

/-- `Ch`, KH's "choice" (R162, R182). -/
def ch {w : Nat} (x y z : BitVec w) : BitVec w := (x &&& y) ^^^ (~~~x &&& z)

/-- `Maj`, KH's "majority" (R162, R182). -/
def maj {w : Nat} (x y z : BitVec w) : BitVec w := (x &&& y) ^^^ (x &&& z) ^^^ (y &&& z)

/-- `BSIG0` of unit 0 (R162). -/
def bsig0x32 (x : Word32) : Word32 := rotr x 2 ^^^ rotr x 13 ^^^ rotr x 22

/-- `BSIG1` of unit 0 (R162). -/
def bsig1x32 (x : Word32) : Word32 := rotr x 6 ^^^ rotr x 11 ^^^ rotr x 25

/-- `SSIG0` of unit 0 (R162). -/
def ssig0x32 (x : Word32) : Word32 := rotr x 7 ^^^ rotr x 18 ^^^ shr x 3

/-- `SSIG1` of unit 0 (R162). -/
def ssig1x32 (x : Word32) : Word32 := rotr x 17 ^^^ rotr x 19 ^^^ shr x 10

/-- `BSIG0` of unit 1 (R182). -/
def bsig0x64 (x : Word64) : Word64 := rotr x 28 ^^^ rotr x 34 ^^^ rotr x 39

/-- `BSIG1` of unit 1 (R182). -/
def bsig1x64 (x : Word64) : Word64 := rotr x 14 ^^^ rotr x 18 ^^^ rotr x 41

/-- `SSIG0` of unit 1 (R182). -/
def ssig0x64 (x : Word64) : Word64 := rotr x 1 ^^^ rotr x 8 ^^^ shr x 7

/-- `SSIG1` of unit 1 (R182). -/
def ssig1x64 (x : Word64) : Word64 := rotr x 19 ^^^ rotr x 61 ^^^ shr x 6

/-- What differs between the two compression functions: the four sigma functions, the round
constants (`NR` of them) and the number of schedule words `NS` (R9). -/
structure Mixer (w : Nat) where
  bsig0 : BitVec w → BitVec w
  bsig1 : BitVec w → BitVec w
  ssig0 : BitVec w → BitVec w
  ssig1 : BitVec w → BitVec w
  k : List (BitVec w)
  ns : Nat

/-- Unit 0: 64 schedule words, 64 rounds (R164, R165). -/
def mixer256 : Mixer 32 where
  bsig0 := bsig0x32
  bsig1 := bsig1x32
  ssig0 := ssig0x32
  ssig1 := ssig1x32
  k := k256
  ns := 64

/-- Unit 1: 80 schedule words, 80 rounds (R184, R185). -/
def mixer512 : Mixer 64 where
  bsig0 := bsig0x64
  bsig1 := bsig1x64
  ssig0 := ssig0x64
  ssig1 := ssig1x64
  k := k512
  ns := 80

/-- The sixteen message words of a block, `M_i = LoadBE(ws, blk, i)` (R130, R161, R181). -/
def messageWords (w : Nat) (blk : List Byte) : List (BitVec w) :=
  (List.range 16).map fun i => BitVec.ofNat w (loadBE (w / 8) blk i)

/-- `W[t]` from the words before it, `t` being their number (R164, R184). -/
def nextScheduleWord {w : Nat} (m : Mixer w) (ws : List (BitVec w)) : BitVec w :=
  let t := ws.length
  m.ssig1 (ws.getD (t - 2) 0) + ws.getD (t - 7) 0 + m.ssig0 (ws.getD (t - 15) 0) +
    ws.getD (t - 16) 0

/-- The schedule with `n` more words. -/
def extendSchedule {w : Nat} (m : Mixer w) : Nat → List (BitVec w) → List (BitVec w)
  | 0, ws => ws
  | n + 1, ws => extendSchedule m n (ws ++ [nextScheduleWord m ws])

/-- The message schedule `W[0..NS-1]` of a block (R33, R164, R184). -/
def schedule {w : Nat} (m : Mixer w) (blk : List Byte) : List (BitVec w) :=
  extendSchedule m (m.ns - 16) (messageWords w blk)

/-- The eight working registers (R32). -/
structure Regs (w : Nat) where
  a : BitVec w
  b : BitVec w
  c : BitVec w
  d : BitVec w
  e : BitVec w
  f : BitVec w
  g : BitVec w
  h : BitVec w
deriving DecidableEq, Repr

/-- The registers as a compression starts (R165, R185). -/
def loadRegs {w : Nat} (s : HashState w) : Regs w where
  a := s.h0
  b := s.h1
  c := s.h2
  d := s.h3
  e := s.h4
  f := s.h5
  g := s.h6
  h := s.h7

/-- One round, with its constant and its schedule word: one simultaneous assignment of the eight
registers, the right-hand sides taken from the old values (R165, R185). -/
def hashRound {w : Nat} (m : Mixer w) (r : Regs w) (kw : BitVec w × BitVec w) : Regs w :=
  let t1 := r.h + m.bsig1 r.e + ch r.e r.f r.g + kw.1 + kw.2
  let t2 := m.bsig0 r.a + maj r.a r.b r.c
  { a := t1 + t2, b := r.a, c := r.b, d := r.c, e := r.d + t1, f := r.e, g := r.f, h := r.g }

/-- The rounds, one for each pair of constant and schedule word, in order. -/
def rounds {w : Nat} (m : Mixer w) (s : HashState w) (ws : List (BitVec w)) : Regs w :=
  (m.k.zip ws).foldl (hashRound m) (loadRegs s)

/-- Feed-forward: the registers added word by word into the state (R166, R186). -/
def feedForward {w : Nat} (s : HashState w) (r : Regs w) : HashState w where
  h0 := s.h0 + r.a
  h1 := s.h1 + r.b
  h2 := s.h2 + r.c
  h3 := s.h3 + r.d
  h4 := s.h4 + r.e
  h5 := s.h5 + r.f
  h6 := s.h6 + r.g
  h7 := s.h7 + r.h

/-- Schedule, rounds, feed-forward (R160, R180). -/
def compress {w : Nat} (m : Mixer w) (s : HashState w) (blk : List Byte) : HashState w :=
  feedForward s (rounds m s (schedule m blk))

/-- `Compress(0, H, blk)` (R160). -/
def compress256 (s : HashState 32) (blk : List Byte) : HashState 32 := compress mixer256 s blk

/-- `Compress(1, H, blk)` (R180). -/
def compress512 (s : HashState 64) (blk : List Byte) : HashState 64 := compress mixer512 s blk

end Sys2Proof.Machine
end

