-- ==== Sys2Proof/Machine/Units.lean ====
section
/-!
DEFINITION. The state of one unit (spec/10_state.md R30, R31, R35, R36, R38) and the state construction
and RESET leave an engine in (R48).
-/
namespace Sys2Proof.Machine

/-- `Life` (R30, R38). -/
inductive Life where
  | fresh
  | accepting
  | finalized
  | faulted
deriving DecidableEq, Repr

/-- `EngineState(u)` of R30, for words of `w` bits and a byte counter of `c` bits. -/
structure Engine (w c : Nat) where
  /-- `H[0..7]`, the HashState (R31). -/
  h : HashState w
  /-- `BUF`, the streaming buffer (R35). -/
  buf : List Byte
  /-- `COUNT`, the bytes ingested since the last reset (R36). -/
  count : BitVec c
  /-- `LIFE` (R38). -/
  life : Life
deriving DecidableEq, Repr

/-- `TupleState` of R30. -/
structure TupleUnit where
  /-- `LIFE` (R38). -/
  life : Life
deriving DecidableEq, Repr

/-- An engine as construction and RESET leave it: "Construction initializes HashState to fixed constants
and clears Buffer/Counter" (R48). -/
def Engine.initial {w : Nat} (c : Nat) (iv : HashState w) : Engine w c where
  h := iv
  buf := []
  count := 0
  life := .fresh

end Sys2Proof.Machine
end

