-- ==== Sys2Proof/Machine/Hash.lean ====
section
/-!
DEFINITION. What a hash engine does with bytes, written once for both engines: the ingestion protocol
(spec/41_loader_and_ingest.md R123, R124), the padding (spec/42_md_padding_finalize.md R140, R141), the
finalization (R143 to R146) and the digest (spec/10_state.md R47).
-/
namespace Sys2Proof.Machine

/-- The parameters of R9 and R11 for one engine, but for the digest length, which is an argument of
`digest`, with its compression function. -/
structure Family (w : Nat) where
  /-- `B`, the block size in bytes. -/
  blockBytes : Nat
  /-- `LF`, the width of the bit-length field in bytes. -/
  lengthField : Nat
  /-- `MAXCOUNT`. -/
  maxCount : Nat
  /-- `Compress(u, H, blk)`. -/
  compress : HashState w → List Byte → HashState w

/-- Unit 0 (R9, R11, R160). -/
def sha256 : Family 32 where
  blockBytes := 64
  lengthField := 8
  maxCount := 2 ^ 61 - 1
  compress := compress256

/-- Unit 1 (R9, R11, R180). -/
def sha512t : Family 64 where
  blockBytes := 128
  lengthField := 16
  maxCount := 2 ^ 125 - 1
  compress := compress512

/-- The first `q` blocks of `d` compressed in order, each into the HashState the one before left. -/
def compressBlocks {w : Nat} (F : Family w) : Nat → HashState w → List Byte → HashState w
  | 0, h, _ => h
  | q + 1, h, d => compressBlocks F q (F.compress h (d.take F.blockBytes)) (d.drop F.blockBytes)

/-- Steps 3 and 4 of R123, entered with `BUF = []`: compress whole blocks straight from the remaining
input, then keep the tail. -/
def consumeBlocks {w c : Nat} (F : Family w) (e : Engine w c) (rest : List Byte) : Engine w c :=
  let q := rest.length / F.blockBytes
  { e with h := compressBlocks F q e.h rest, buf := rest.drop (q * F.blockBytes) }

/-- Steps 1 to 4 of R123, without the counter. -/
def takeInput {w c : Nat} (F : Family w) (e : Engine w c) (data : List Byte) : Engine w c :=
  if 0 < e.buf.length then
    let k := min (F.blockBytes - e.buf.length) data.length
    let full := e.buf ++ data.take k
    if full.length < F.blockBytes then { e with buf := full }
    else consumeBlocks F { e with h := F.compress e.h full, buf := [] } (data.drop k)
  else consumeBlocks F e data

/-- `COUNT <- COUNT + L` (R21, R124): an addition of `CNTW` bits, in unit 1 with the carry from the low
half into the high half. -/
def addCount {c : Nat} (count : BitVec c) (l : Nat) : BitVec c := count + BitVec.ofNat c l

/-- `Ingest(u, data)` (R123): the four steps, and the counter once (R124). -/
def ingest {w c : Nat} (F : Family w) (e : Engine w c) (data : List Byte) : Engine w c :=
  { takeInput F e data with count := addCount e.count data.length }

/-- The number of zero bytes of R140's step 2, `(B - LF - len(P)) mod B`, `mod` giving a result in
`[0, B)`. -/
def zeroFill (blockBytes lengthField len : Nat) : Nat :=
  (((blockBytes : Int) - lengthField - len) % blockBytes).toNat

/-- The bit-length field `ToBE_LF(8 x count)` (R141). -/
def lengthBytes (lengthField count : Nat) : List Byte := toBE lengthField (8 * count)

/-- `Pad(u, buf, count)` (R140). -/
def pad {w : Nat} (F : Family w) (buf : List Byte) (count : Nat) : List Byte :=
  let p := buf ++ [0x80]
  p ++ zeros (zeroFill F.blockBytes F.lengthField p.length) ++ lengthBytes F.lengthField count

/-- The data path of FINALIZE: pad, compress the one or two blocks, discard the buffer (R143, R144, R146).
`COUNT` is not changed (R145). -/
def finish {w c : Nat} (F : Family w) (e : Engine w c) : Engine w c :=
  let p := pad F e.buf e.count.toNat
  { e with h := compressBlocks F (p.length / F.blockBytes) e.h p, buf := [] }

/-- `Digest(u, H)`: the words big-endian one after another, cut at `dlen = DLEN(u)` bytes (R47). -/
def digest {w : Nat} (dlen : Nat) (h : HashState w) : List Byte :=
  (h.words.flatMap fun x => toBE (w / 8) x.toNat).take dlen

end Sys2Proof.Machine
end

