-- ==== Sys2Proof/Machine/State.lean ====
section
/-!
DEFINITION. The state of the machine: the architectural state of spec/10_state.md R30, and the inputs
and outputs of its step that R30 leaves outside the block (caller memory, the command port, the response
port, the construction parameters), which a step that is a function of the state alone must find there.
The reset values are those of R48 and R260.
-/
namespace Sys2Proof.Machine

/-- The three units (R4). -/
inductive UnitId where
  | e256
  | e512
  | tup
deriving DecidableEq, Repr

/-- The fault codes (R90, R231). -/
inductive FaultCode where
  | illegalCmd
  | unitFaulted
  | misuse
  | addrRange
  | lenOverflow
deriving DecidableEq, Repr

/-- A response `(code, payload)` (R90): the code is OK with a payload, or a fault code, whose payload is
empty (R230). -/
inductive Response where
  | ok (payload : List Byte)
  | fault (code : FaultCode)
deriving DecidableEq, Repr

/-- What the outside world does to the block, one thing at a time. -/
inductive HostInput where
  /-- The host issues a descriptor on the command port (R80). -/
  | command (d : Descriptor)
  /-- The host stores bytes in caller memory between two commands (R73, R92). -/
  | store (addr : Nat) (bytes : List Byte)
  /-- The platform's reset pin (R261). -/
  | resetPin
deriving DecidableEq, Repr

/-- Caller memory `M` (R60): the cells whose byte is not the one an unlisted address reads as, at
strictly rising addresses. -/
abbrev Memory := List Host.Cell

/-- The state of the machine. -/
structure State where
  /-- Unit 0, `E256`. -/
  e256 : Engine 32 64
  /-- Unit 1, `E512`. -/
  e512 : Engine 64 128
  /-- Unit 2, `TUP`. -/
  tup : TupleUnit
  /-- `XLOG`, the events unit 2 has presented to the external primitive, oldest first (R45). -/
  xlog : List XofEvent
  /-- Caller memory `M`, an input (R30, R44). -/
  mem : Memory
  /-- The inputs the block has not taken yet, the next one first (R72; log 2). -/
  pending : List HostInput
  /-- The responses given so far, oldest first (R90; log 3). -/
  responses : List Response
  /-- The construction parameters (R12, R43; log 4). -/
  params : Params
deriving DecidableEq, Repr

/-- Why a step could stop. There is nothing here: a fault of this hardware is a response after which
the machine goes on (R230, R238), "every command runs to its response" (R240), and no rule gives a
command no outcome. -/
inductive Fault where
deriving DecidableEq, Repr

/-- Why the model could have no meaning for a command. -/
inductive Refusal where
  /-- Raised by `exec` for a command whose meaning is not written yet. Safe: the machine stops. No arm
  of `exec` raises it now. -/
  | notModelled (mnemonic : String)
deriving DecidableEq, Repr

/-- The power-on state of an instance with parameters `p` (R48, R260), with nothing issued yet, nothing
answered yet and no cell of caller memory listed (log 1, 2, 3). -/
def State.powerOn (p : Params) : State where
  e256 := Engine.initial 64 p.iv256
  e512 := Engine.initial 128 p.iv512
  tup := { life := .fresh }
  xlog := []
  mem := []
  pending := []
  responses := []
  params := p

/-- The machine right after power-on, for the default parameters (log 4). -/
def State.reset : State := State.powerOn defaultParams

end Sys2Proof.Machine
end

