-- ==== Sys2Proof/Machine/Flags.lean ====
section
/-!
DEFINITION. `LIFE`, the only flag there is (spec/10_state.md R38, R40), and the lifecycle table of
spec/40_lifecycle_commands.md R100. There are no condition codes to compute (R40).
-/
namespace Sys2Proof.Machine

/-- The rows of R100's table. -/
inductive LifeRow where
  | reset
  /-- INGEST, NEXTDATA. -/
  | ingest
  | finalize
  /-- DIGEST.256, DIGEST.512. -/
  | digestHash
  /-- DIGEST.TUP. -/
  | digestTup
deriving DecidableEq, Repr

/-- R100's table: the next `LIFE` when the command is accepted, or the fault it raises. -/
def lifecycle : LifeRow → Life → Except FaultCode Life
  | .reset, _ => .ok .fresh
  | .ingest, .fresh => .ok .accepting
  | .ingest, .accepting => .ok .accepting
  | .ingest, .finalized => .error .misuse
  | .ingest, .faulted => .error .unitFaulted
  | .finalize, .fresh => .ok .finalized
  | .finalize, .accepting => .ok .finalized
  | .finalize, .finalized => .error .misuse
  | .finalize, .faulted => .error .unitFaulted
  | .digestHash, .fresh => .error .misuse
  | .digestHash, .accepting => .error .misuse
  | .digestHash, .finalized => .ok .finalized
  | .digestHash, .faulted => .error .unitFaulted
  | .digestTup, .fresh => .ok .fresh
  | .digestTup, .accepting => .ok .accepting
  | .digestTup, .finalized => .ok .finalized
  | .digestTup, .faulted => .error .unitFaulted

/-- `LIFE` of a unit. -/
def State.life (s : State) : UnitId → Life
  | .e256 => s.e256.life
  | .e512 => s.e512.life
  | .tup => s.tup.life

/-- The state with `LIFE` of a unit set. -/
def State.setLife (s : State) : UnitId → Life → State
  | .e256, l => { s with e256 := { s.e256 with life := l } }
  | .e512, l => { s with e512 := { s.e512 with life := l } }
  | .tup, l => { s with tup := { life := l } }

end Sys2Proof.Machine
end

