-- ==== Sys2Proof/Machine/Memory.lean ====
section
/-!
DEFINITION. Caller memory (spec/20_memory.md R60, R61, R69): one byte-addressed memory of `2^64` bytes,
held as the list of its cells that differ from the byte an unlisted address reads as. The block only
reads it (R67); the write is the host's, between two commands (R73, R92).
-/
namespace Sys2Proof.Machine

/-- The byte an address reads as that no cell lists. The contents of `M` are the host's, and the spec
gives none (DESIGN CHOICE, log 1). -/
def Memory.unlisted : Byte := 0

/-- The canonical form: addresses strictly rise, lie in the address space, and no cell holds the byte an
unlisted address reads as. -/
abbrev Memory.wf (m : Memory) : Prop :=
  m.Pairwise (fun x y => x.1 < y.1) ∧
    ∀ c ∈ m, c.2 ≠ Memory.unlisted ∧ c.1 < Config.addressSpace

/-- `M(a)` (R60). -/
def Memory.read : Memory → Nat → Byte
  | [], _ => Memory.unlisted
  | (k, v) :: m, a => if k = a then v else Memory.read m a

/-- A cell in front of a canonical memory whose addresses all lie above it. -/
def Memory.cons (a : Nat) (v : Byte) (m : Memory) : Memory :=
  if v = Memory.unlisted then m else (a, v) :: m

/-- `M` with the byte `v` at the address `a`. -/
def Memory.write : Memory → Nat → Byte → Memory
  | [], a, v => Memory.cons a v []
  | (k, x) :: m, a, v =>
    if a < k then Memory.cons a v ((k, x) :: m)
    else if a = k then Memory.cons a v m
    else (k, x) :: Memory.write m a v

/-- A byte stored by the host; `M` has no address at or above `2^64` (R60), so nothing is stored there
(log 12). -/
def Memory.storeByte (m : Memory) (a : Nat) (v : Byte) : Memory :=
  if a < Config.addressSpace then Memory.write m a v else m

/-- The bytes at consecutive addresses from `a` (R92). -/
def Memory.store : Memory → Nat → List Byte → Memory
  | m, _, [] => m
  | m, a, b :: bs => Memory.store (Memory.storeByte m a b) (a + 1) bs

/-- `MemRead(addr, n)`: `s[i] = M(addr + i)` (R61). Every caller has checked the range first. -/
def memRead (m : Memory) (addr n : Nat) : List Byte :=
  (List.range n).map fun i => Memory.read m (addr + i)

end Sys2Proof.Machine
end

