-- ==== Sys2Proof/Machine/Operands.lean ====
section
/-!
DEFINITION. The operand forms (spec/30_encoding.md R82, R84) and the operand checks: the address range
(spec/20_memory.md R61; spec/60_exceptions.md R235) and the byte count (spec/41_loader_and_ingest.md
R128; spec/60_exceptions.md R236). All of it is natural-number arithmetic, never wrapped (R23).
-/
namespace Sys2Proof.Machine

/-- The hole takes in the address. -/
def holeHas (h : Hole) (a : Nat) : Bool := h.base ≤ a && a < h.base + h.size

/-- `MEM_VALID(a)` (R12). -/
def memValid (holes : List Hole) (a : Nat) : Bool := holes.all fun h => !holeHas h a

/-- The hole takes in no address of `[a, a + n)`, for `n > 0`. -/
def holeMisses (h : Hole) (a n : Nat) : Bool :=
  h.size == 0 || a + n ≤ h.base || h.base + h.size ≤ a

/-- `MemRead(a, n)` is defined: `a + n <= 2^64` and every address of `[a, a + n)` is `MEM_VALID`; a range
of length 0 touches no memory and is defined for every `a` (R61, R129). -/
def readable (holes : List Hole) (a n : Nat) : Bool :=
  n == 0 || (a + n ≤ Config.addressSpace && holes.all fun h => holeMisses h a n)

/-- The effective address of LOADW, `A + L x ws`, "formed in natural-number arithmetic and checked
against `2^64`, never wrapped" (R84, R121, R122). -/
def loadAddress (ws a i : Nat) : Nat := a + i * ws

/-- The byte count may grow by `l` (R128). -/
def countFits {c : Nat} (maxCount : Nat) (count : BitVec c) (l : Nat) : Bool :=
  count.toNat + l ≤ maxCount

end Sys2Proof.Machine
end

