-- ==== Sys2Proof/Machine/Ops.lean ====
section
/-!
DEFINITION. The shared operations of the machine: giving a response (spec/30_encoding.md R90), taking a
fault and returning from one (spec/60_exceptions.md R230 to R239), the prologue's lifecycle check (R96
steps 3 and 4), emitting an event on the XOF port (spec/45_tuple_encoding.md R210), and the host's own
actions between commands (spec/20_memory.md R73; spec/70_reset_and_hazards.md R261).
-/
namespace Sys2Proof.Machine

/-- What a command answers. -/
abbrev Result := Host.Outcome State Fault Refusal

/-- The number of a fault code (R90, R231). -/
def FaultCode.number : FaultCode → BitVec 8
  | .illegalCmd => 0x01
  | .unitFaulted => 0x02
  | .misuse => 0x03
  | .addrRange => 0x04
  | .lenOverflow => 0x05

/-- The 8-bit code of a response (R90). -/
def Response.code : Response → BitVec 8
  | .ok _ => 0x00
  | .fault c => c.number

/-- The payload of a response, empty with every fault code (R90, R230). -/
def Response.payload : Response → List Byte
  | .ok p => p
  | .fault _ => []

/-- The state after one response more on the response port. -/
def State.answer (s : State) (r : Response) : State := { s with responses := s.responses ++ [r] }

/-- `respond OK(p)` (R16). -/
def State.respondOk (s : State) (p : List Byte) : State := s.answer (.ok p)

/-- `LIFE <- Faulted` for the fault codes that ask for it: "`MISUSE`, `ADDR_RANGE` and `LEN_OVERFLOW`
... set the addressed unit's `LIFE <- Faulted` and change nothing else"; "`ILLEGAL_CMD` and `UNIT_FAULTED`
change nothing"; a fault that addresses no unit changes nothing (R238). -/
def State.markFaulted (s : State) : Option UnitId → FaultCode → State
  | none, _ => s
  | some _, .illegalCmd => s
  | some _, .unitFaulted => s
  | some u, .misuse => s.setLife u .faulted
  | some u, .addrRange => s.setLife u .faulted
  | some u, .lenOverflow => s.setLife u .faulted

/-- `raise <Fault>`: taking a fault, for every command (R230, R238). There is no handler and no saved
value: the addressed unit is marked and the response carries the code, its payload empty. -/
def State.raise (s : State) (u : Option UnitId) (f : FaultCode) : State :=
  (s.markFaulted u f).answer (.fault f)

/-- "The only way out of `Faulted` is RESET of that unit" (R239): a unit as construction leaves it. The
tuple unit has no state but `LIFE`. -/
def State.resetUnit (s : State) : UnitId → State
  | .e256 => { s with e256 := Engine.initial 64 s.params.iv256 }
  | .e512 => { s with e512 := Engine.initial 128 s.params.iv512 }
  | .tup => { s with tup := { life := .fresh } }

/-- Steps 3 and 4 of the prologue (R96) for a command of the unit `u` on the row `r` of R100: raise the
table's fault, or go on with the next `LIFE`. -/
def withLife (s : State) (u : UnitId) (r : LifeRow) (go : Life → State) : State :=
  match lifecycle r (s.life u) with
  | .error f => s.raise (some u) f
  | .ok l => go l

/-- Step 5 of the prologue (R96), one check: raise `f` on the unit unless the check passes. -/
def require (s : State) (u : Option UnitId) (f : FaultCode) (check : Bool) (go : State) : State :=
  if check then go else s.raise u f

/-- `emit e` (R16): append an event to `XLOG`. -/
def State.emit (s : State) (e : XofEvent) : State := { s with xlog := s.xlog ++ [e] }

/-- A descriptor that decodes to no command (R86, R232). -/
def rejectDescriptor (s : State) : State := s.raise none .illegalCmd

/-- The host stores bytes in caller memory (R73, R92). -/
def hostStore (s : State) (addr : Nat) (bytes : List Byte) : State :=
  { s with mem := Memory.store s.mem addr bytes }

/-- The reset pin: "the effect of power-on on all three units at once" (R261); `XLOG` is no unit's state
and keeps its events (log 8). -/
def pulseResetPin (s : State) : State := ((s.resetUnit .e256).resetUnit .e512).resetUnit .tup

end Sys2Proof.Machine
end

