-- ==== Sys2Proof/Machine/Finalize.lean ====
section
/-!
DEFINITION. FINALIZE.256 and FINALIZE.512 (spec/42_md_padding_finalize.md R143 to R146).
-/
namespace Sys2Proof.Machine

/-- FINALIZE.256 (R143): no operand checks, it reads no memory. -/
def execFinalize256 (s : State) : Result :=
  .next <| withLife s .e256 .finalize fun next =>
    { s with e256 := { finish sha256 s.e256 with life := next } }.respondOk []

/-- FINALIZE.512 (R144). -/
def execFinalize512 (s : State) : Result :=
  .next <| withLife s .e512 .finalize fun next =>
    { s with e512 := { finish sha512t s.e512 with life := next } }.respondOk []

end Sys2Proof.Machine
end

