-- ==== Sys2Proof/Machine/Ingest.lean ====
section
/-!
DEFINITION. INGEST.256 and INGEST.512 (spec/41_loader_and_ingest.md R126 to R129).
-/
namespace Sys2Proof.Machine

/-- INGEST.256 (R126): the lifecycle, then the checks of R128 in order, then the data. -/
def execIngest256 (a l : Nat) (s : State) : Result :=
  .next <| withLife s .e256 .ingest fun next =>
    require s (some .e256) .addrRange (readable s.params.holes a l) <|
    require s (some .e256) .lenOverflow (countFits sha256.maxCount s.e256.count l) <|
    { s with e256 := { ingest sha256 s.e256 (memRead s.mem a l) with life := next } }.respondOk []

/-- INGEST.512 (R127). -/
def execIngest512 (a l : Nat) (s : State) : Result :=
  .next <| withLife s .e512 .ingest fun next =>
    require s (some .e512) .addrRange (readable s.params.holes a l) <|
    require s (some .e512) .lenOverflow (countFits sha512t.maxCount s.e512.count l) <|
    { s with e512 := { ingest sha512t s.e512 (memRead s.mem a l) with life := next } }.respondOk []

end Sys2Proof.Machine
end

