-- ==== Sys2Proof/Machine/Lifecycle.lean ====
section
/-!
DEFINITION. RESET.256, RESET.512, DIGEST.256 and DIGEST.512 (spec/40_lifecycle_commands.md R102 to R105).
-/
namespace Sys2Proof.Machine

/-- RESET.256 (R102): accepted in every lifecycle state. -/
def execReset256 (s : State) : Result := .next ((s.resetUnit .e256).respondOk [])

/-- RESET.512 (R103). -/
def execReset512 (s : State) : Result := .next ((s.resetUnit .e512).respondOk [])

/-- DIGEST.256 (R104): no state changes. -/
def execDigest256 (s : State) : Result :=
  .next (withLife s .e256 .digestHash fun _ => s.respondOk (digest dlen256 s.e256.h))

/-- DIGEST.512 (R105): `DLEN(1)` bytes, which the instance's parameters give (D3); no state changes. -/
def execDigest512 (s : State) : Result :=
  .next (withLife s .e512 .digestHash fun _ =>
    s.respondOk (digest s.params.dlen512.val s.e512.h))

end Sys2Proof.Machine
end

