-- ==== Sys2Proof/Machine/Loader.lean ====
section
/-!
DEFINITION. LOADW.32 and LOADW.64, the unaligned word loader on caller memory
(spec/41_loader_and_ingest.md R121, R122). They read and change no unit state.
-/
namespace Sys2Proof.Machine

/-- The word of `ws` bytes at `ea`, as a number. -/
def loadWord (m : Memory) (ws ea : Nat) : Nat := be (memRead m ea ws)

/-- LOADW.32 (R121). -/
def execLoadw32 (a i : Nat) (s : State) : Result :=
  .next <| require s none .addrRange (readable s.params.holes (loadAddress 4 a i) 4) <|
    s.respondOk (toBE 4 (loadWord s.mem 4 (loadAddress 4 a i)))

/-- LOADW.64 (R122). -/
def execLoadw64 (a i : Nat) (s : State) : Result :=
  .next <| require s none .addrRange (readable s.params.holes (loadAddress 8 a i) 8) <|
    s.respondOk (toBE 8 (loadWord s.mem 8 (loadAddress 8 a i)))

end Sys2Proof.Machine
end

