-- ==== Sys2Proof/Machine/Tuple.lean ====
section
/-!
DEFINITION. The commands of unit 2 and the length encoder (spec/45_tuple_encoding.md R203 to R208).
-/
namespace Sys2Proof.Machine

/-- LENC (R203): stateless, accepted in every lifecycle state. -/
def execLenc (n : Nat) (s : State) : Result := .next (s.respondOk (leftEncode n))

/-- RENC (R204). -/
def execRenc (n : Nat) (s : State) : Result := .next (s.respondOk (rightEncode n))

/-- The events of one element: its length in bits, then its bytes (R205). -/
def emitElement (s : State) (bytes : List Byte) : State :=
  (s.emit (.xAbsorb (leftEncode (8 * bytes.length)))).emit (.xAbsorb bytes)

/-- The events of the end of a tuple: the requested output length in bits, then the primitive's finalize
(R206). -/
def emitClosing (s : State) : State :=
  (s.emit (.xAbsorb (rightEncode (8 * s.params.tup.outlenBytes.val)))).emit .xFinalize

/-- NEXTDATA (R205). -/
def execNextdata (a l : Nat) (s : State) : Result :=
  .next <| withLife s .tup .ingest fun next =>
    require s (some .tup) .addrRange (readable s.params.holes a l) <|
    ((emitElement s (memRead s.mem a l)).setLife .tup next).respondOk []

/-- FINALIZE.TUP (R206). -/
def execFinalizeTup (s : State) : Result :=
  .next <| withLife s .tup .finalize fun next => ((emitClosing s).setLife .tup next).respondOk []

/-- DIGEST.TUP (R207): the primitive's answer to the log before the read, an open value (log 6). -/
def execDigestTup (s : State) : Result :=
  .next <| withLife s .tup .digestTup fun _ =>
    (s.emit .xRead).respondOk (Config.xofDigest s.params.tup s.xlog)

/-- RESET.TUP (R208): the event, then the unit as construction leaves it; `XLOG` is not cleared. -/
def execResetTup (s : State) : Result := .next (((s.emit .xReset).resetUnit .tup).respondOk [])

end Sys2Proof.Machine
end

