-- ==== Sys2Proof/Machine/Dispatch.lean ====
section
/-!
DEFINITION. The command dispatch: one arm per row of spec/30_encoding.md R83.
-/
namespace Sys2Proof.Machine

def exec (i : Instr) (s : State) : Host.Outcome State Fault Refusal :=
  match i with
  | .reset256 => Sys2Proof.Machine.execReset256 s
  | .reset512 => Sys2Proof.Machine.execReset512 s
  | .resetTup => Sys2Proof.Machine.execResetTup s
  | .ingest256 a l => Sys2Proof.Machine.execIngest256 a l s
  | .ingest512 a l => Sys2Proof.Machine.execIngest512 a l s
  | .finalize256 => Sys2Proof.Machine.execFinalize256 s
  | .finalize512 => Sys2Proof.Machine.execFinalize512 s
  | .finalizeTup => Sys2Proof.Machine.execFinalizeTup s
  | .digest256 => Sys2Proof.Machine.execDigest256 s
  | .digest512 => Sys2Proof.Machine.execDigest512 s
  | .digestTup => Sys2Proof.Machine.execDigestTup s
  | .nextdata a l => Sys2Proof.Machine.execNextdata a l s
  | .lenc n => Sys2Proof.Machine.execLenc n s
  | .renc n => Sys2Proof.Machine.execRenc n s
  | .loadw32 a k => Sys2Proof.Machine.execLoadw32 a k s
  | .loadw64 a k => Sys2Proof.Machine.execLoadw64 a k s

end Sys2Proof.Machine
end

