-- ==== Sys2Proof/Machine/Step.lean ====
section
/-!
DEFINITION. One step: the block takes the next input and runs it to its end (spec/20_memory.md R68,
R72; spec/30_encoding.md R96). There is no program counter to advance (spec/10_state.md R41).
-/
namespace Sys2Proof.Machine

/-- The state with the next input taken from the port. -/
def State.take (s : State) : State := { s with pending := s.pending.tail }

/-- One step. With nothing pending the block "is idle between commands and loses nothing while idle"
(R245; log 2). -/
def step (s : State) : Host.Outcome State Fault Refusal :=
  match s.pending with
  | [] => .next s
  | .command d :: _ =>
    match decode d with
    | .ok i => exec i s.take
    | .error _ => .next (rejectDescriptor s.take)
  | .store addr bytes :: _ => .next (hostStore s.take addr bytes)
  | .resetPin :: _ => .next (pulseResetPin s.take)

/-- `s` with the descriptor whose low `nbits` bits are `w`, and whose other bits are 0, issued as the next
command (log 2). -/
def State.withFetchWord (s : State) (nbits w : Nat) : State :=
  { s with pending := .command (BitVec.ofNat 160 (w % 2 ^ nbits)) :: s.pending }

end Sys2Proof.Machine
end

