-- ==== Sys2Proof/Safety.lean ====
section
/-!
DEFINITION. The terms claims are stated in: what a readable range is (spec/20_memory.md R61), the
invariant of reachable states (spec/10_state.md R35, R37, R39), the functions the spec defines over
whole messages and whole tuples (spec/42_md_padding_finalize.md R147; spec/45_tuple_encoding.md R209,
R210, R212), and command sequences (spec/30_encoding.md R95). The machine calls none of them.
-/
namespace Sys2Proof.Machine

/-- `MemRead(a, n)` is defined (R61): the empty range everywhere, any other range when it ends at or
below `2^64` and all its addresses are `MEM_VALID`. -/
def Readable (holes : List Hole) (a n : Nat) : Prop :=
  n = 0 ∨ (a + n ≤ 2 ^ 64 ∧ ∀ x, a ≤ x → x < a + n → memValid holes x = true)

/-- The unit whose state a command addresses; LOADW, LENC and RENC address none (R96 step 2, R100). -/
def addressedUnit : Instr → Option UnitId
  | .reset256 | .ingest256 _ _ | .finalize256 | .digest256 => some .e256
  | .reset512 | .ingest512 _ _ | .finalize512 | .digest512 => some .e512
  | .resetTup | .finalizeTup | .digestTup | .nextdata _ _ => some .tup
  | .lenc _ | .renc _ | .loadw32 _ _ | .loadw64 _ _ => none

/-- The run of caller memory a command reads: its first address and its length (R62). -/
def readRange : Instr → Nat × Nat
  | .ingest256 a l => (a, l)
  | .ingest512 a l => (a, l)
  | .nextdata a l => (a, l)
  | .loadw32 a i => (a + i * 4, 4)
  | .loadw64 a i => (a + i * 8, 8)
  | .reset256 | .reset512 | .resetTup | .finalize256 | .finalize512 | .finalizeTup => (0, 0)
  | .digest256 | .digest512 | .digestTup | .lenc _ | .renc _ => (0, 0)

/-- The RESET command of a unit (R83). -/
def resetCommand : UnitId → Instr
  | .e256 => .reset256
  | .e512 => .reset512
  | .tup => .resetTup

/-- The state a command leaves when it has all its effects and answers `OK` (R238), its checks left out:
the state its rule writes, the events it emits and its payload. -/
def completed : Instr → State → State
  | .reset256, s => { s with
      e256 := Engine.initial 64 s.params.iv256
      responses := s.responses ++ [.ok []] }
  | .reset512, s => { s with
      e512 := Engine.initial 128 s.params.iv512
      responses := s.responses ++ [.ok []] }
  | .resetTup, s => { s with
      tup := { life := .fresh }
      xlog := s.xlog ++ [.xReset]
      responses := s.responses ++ [.ok []] }
  | .ingest256 a l, s => { s with
      e256 := { ingest sha256 s.e256 (memRead s.mem a l) with life := .accepting }
      responses := s.responses ++ [.ok []] }
  | .ingest512 a l, s => { s with
      e512 := { ingest sha512t s.e512 (memRead s.mem a l) with life := .accepting }
      responses := s.responses ++ [.ok []] }
  | .finalize256, s => { s with
      e256 := { finish sha256 s.e256 with life := .finalized }
      responses := s.responses ++ [.ok []] }
  | .finalize512, s => { s with
      e512 := { finish sha512t s.e512 with life := .finalized }
      responses := s.responses ++ [.ok []] }
  | .finalizeTup, s => { s with
      tup := { life := .finalized }
      xlog := s.xlog ++ [.xAbsorb (rightEncode (8 * s.params.tup.outlenBytes.val)), .xFinalize]
      responses := s.responses ++ [.ok []] }
  | .digest256, s => { s with
      responses := s.responses ++ [.ok (digest dlen256 s.e256.h)] }
  | .digest512, s => { s with
      responses := s.responses ++ [.ok (digest s.params.dlen512.val s.e512.h)] }
  | .digestTup, s => { s with
      xlog := s.xlog ++ [.xRead]
      responses := s.responses ++ [.ok (Config.xofDigest s.params.tup s.xlog)] }
  | .nextdata a l, s => { s with
      tup := { life := .accepting }
      xlog := s.xlog ++ [.xAbsorb (leftEncode (8 * l)), .xAbsorb (memRead s.mem a l)]
      responses := s.responses ++ [.ok []] }
  | .lenc n, s => { s with responses := s.responses ++ [.ok (leftEncode n)] }
  | .renc n, s => { s with responses := s.responses ++ [.ok (rightEncode n)] }
  | .loadw32 a i, s => { s with
      responses := s.responses ++ [.ok (toBE 4 (loadWord s.mem 4 (a + i * 4)))] }
  | .loadw64 a i, s => { s with
      responses := s.responses ++ [.ok (toBE 8 (loadWord s.mem 8 (a + i * 8)))] }

/-- Whether a fault code on an addressed unit sets `LIFE <- Faulted` (R238). -/
def FaultCode.marks : FaultCode → Bool
  | .illegalCmd => false
  | .unitFaulted => false
  | .misuse => true
  | .addrRange => true
  | .lenOverflow => true

/-- What every reachable state of an engine satisfies: `len(BUF) < B` (R35), `COUNT <= MAXCOUNT` (R21,
R128), `BUFLEN = COUNT mod B` while Fresh or Accepting and 0 when Finalized (R37), and a Fresh engine as
construction leaves it (R39). -/
structure Engine.Inv {w c : Nat} (F : Family w) (iv : HashState w) (e : Engine w c) : Prop where
  bufShort : e.buf.length < F.blockBytes
  countFits : e.count.toNat ≤ F.maxCount
  bufIsTail : e.life = .fresh ∨ e.life = .accepting →
    e.buf.length = e.count.toNat % F.blockBytes
  finalizedEmpty : e.life = .finalized → e.buf = []
  freshInitial : e.life = .fresh → e = Engine.initial c iv

/-- The invariant of reachable states. -/
structure State.Inv (s : State) : Prop where
  e256 : s.e256.Inv sha256 s.params.iv256
  e512 : s.e512.Inv sha512t s.params.iv512
  mem : Memory.wf s.mem

/-- The shorter form of ingestion (R125): everything not yet compressed, cut into blocks. -/
def ingestShort {w c : Nat} (F : Family w) (e : Engine w c) (data : List Byte) : Engine w c :=
  let s := e.buf ++ data
  let q := s.length / F.blockBytes
  { e with
    h := compressBlocks F q e.h s
    buf := s.drop (q * F.blockBytes)
    count := addCount e.count data.length }

/-- `Pad-tail` of a whole message of `len` bytes (R147). -/
def padTail {w : Nat} (F : Family w) (len : Nat) : List Byte :=
  [0x80] ++ zeros (((F.blockBytes : Int) - F.lengthField - 1 - len) % F.blockBytes).toNat ++
    toBE F.lengthField (8 * len)

/-- `Hash(u, T)`: the whole hash as one function (R147), of `dlen = DLEN(u)` bytes. -/
def hashMessage {w : Nat} (F : Family w) (dlen : Nat) (iv : HashState w) (msg : List Byte) :
    List Byte :=
  let padded := msg ++ padTail F msg.length
  digest dlen (compressBlocks F (padded.length / F.blockBytes) iv padded)

/-- What one event does to the stream absorbed since the last reset (R210). -/
def absorb (stream : List Byte) : XofEvent → List Byte
  | .xReset => []
  | .xAbsorb bytes => stream ++ bytes
  | .xFinalize => stream
  | .xRead => stream

/-- `XStream(XLOG)`: "the concatenation, in order, of the payloads of the `XAbsorb` events after the last
`XReset`" (R210). -/
def xStream (log : List XofEvent) : List Byte := log.foldl absorb []

/-- One element of a tuple as it stands in the stream (R205). -/
def elementBytes (e : List Byte) : List Byte := leftEncode (8 * e.length) ++ e

/-- The stream of a whole tuple (R209). -/
def tupleStream (es : List (List Byte)) (outlen : Nat) : List Byte :=
  es.flatMap elementBytes ++ rightEncode (8 * outlen)

/-- `leftDecode`, an aid to proofs, no part of the block (R212). -/
def leftDecode (s : List Byte) : Nat × List Byte :=
  let k := (s.headD 0).toNat
  (be ((s.drop 1).take k), s.drop (1 + k))

/-- `rightDecode`, an aid to proofs, no part of the block (R212). -/
def rightDecode (s : List Byte) : List Byte × Nat :=
  let k := (s.getLastD 0).toNat
  let m := s.length - 1 - k
  (s.take m, be ((s.drop m).take k))

/-- Commands executed one after another (R72). -/
def execAll : List Instr → State → Result
  | [], s => .next s
  | i :: is, s =>
    match exec i s with
    | .next t => execAll is t
    | .fault f => .fault f
    | .refused r => .refused r

/-- Fresh and Accepting made one: they "differ in name only" (R39). -/
def Life.merge : Life → Life
  | .fresh => .accepting
  | .accepting => .accepting
  | .finalized => .finalized
  | .faulted => .faulted

/-- The state with Fresh and Accepting made one in every unit. -/
def State.merge (s : State) : State :=
  { s with
    e256 := { s.e256 with life := s.e256.life.merge }
    e512 := { s.e512 with life := s.e512.life.merge }
    tup := { life := s.tup.life.merge } }

end Sys2Proof.Machine
end

