-- ==== Sys2Proof/Certificates/Slice0/Obligations.lean ====
section
/-!
DEFINITION. The statements for the provers. Each docstring names the rule of spec/ it formalises. A
statement about an engine's data carries, where it needs them, the clauses of `Engine.Inv` that rule out
states no run reaches; that every step keeps the invariant is `StepKeepsInvariant`.
-/
open Sys2Proof Sys2Proof.Machine

/-! ### Encoding -/

/-- One descriptor of every family, written out from R80, R81 and R83: 16 digits of `L`, 16 of `A`,
8 of `CW`. The last, with `rsv` not zero, is no command (R86). -/
def Obligations.SampleDescriptorsDecode : Prop :=
  decode 0x0000000000000000000000000000000000000001#160 = .ok .reset256 ∧
  decode 0x0000000000000003000000000000100000000002#160 = .ok (.ingest256 0x1000 3) ∧
  decode 0x0000000000000000000000000000000000000103#160 = .ok .finalize512 ∧
  decode 0x0000000000000000000000000000000000000104#160 = .ok .digest512 ∧
  decode 0x0000000000000002000000000000200000000205#160 = .ok (.nextdata 0x2000 2) ∧
  decode 0x0000000000000100000000000000000000000206#160 = .ok (.lenc 256) ∧
  decode 0x1fffffffffffffff000000000000000800000108#160 = .ok (.loadw64 8 0x1fffffffffffffff) ∧
  ∀ i, decode 0x0000000000000005000000000000100a0000ff02#160 ≠ .ok i

/-- No bit of a command's encoding is dropped, for every command and every operand value its fields
admit (R80, R83, R87, R91). -/
def Obligations.DecodeEncodeRoundTrip : Prop :=
  ∀ i : Instr, i.wellFormed = true → decode (encode i) = .ok i

/-- R83's sixteen rows with R82's formats: the operand fields a format reads become the operands, and
"a field a format does not read is ignored". -/
def Obligations.DecodeByCommandWord : Prop :=
  ∀ l a : Nat, l < 2 ^ 64 → a < 2 ^ 64 →
    decode (descriptor l a 0x00000001) = .ok .reset256 ∧
    decode (descriptor l a 0x00000101) = .ok .reset512 ∧
    decode (descriptor l a 0x00000201) = .ok .resetTup ∧
    decode (descriptor l a 0x00000002) = .ok (.ingest256 a l) ∧
    decode (descriptor l a 0x00000102) = .ok (.ingest512 a l) ∧
    decode (descriptor l a 0x00000003) = .ok .finalize256 ∧
    decode (descriptor l a 0x00000103) = .ok .finalize512 ∧
    decode (descriptor l a 0x00000203) = .ok .finalizeTup ∧
    decode (descriptor l a 0x00000004) = .ok .digest256 ∧
    decode (descriptor l a 0x00000104) = .ok .digest512 ∧
    decode (descriptor l a 0x00000204) = .ok .digestTup ∧
    decode (descriptor l a 0x00000205) = .ok (.nextdata a l) ∧
    decode (descriptor l a 0x00000206) = .ok (.lenc l) ∧
    decode (descriptor l a 0x00000207) = .ok (.renc l) ∧
    decode (descriptor l a 0x00000008) = .ok (.loadw32 a l) ∧
    decode (descriptor l a 0x00000108) = .ok (.loadw64 a l)

/-- "A descriptor is legal exactly when its `CW` equals one of the sixteen values of rule R83"; every
other one is answered `ILLEGAL_CMD` and changes nothing else (R86, R232). -/
def Obligations.IllegalExactlyOutsideTable : Prop :=
  let legal : List (BitVec 32) :=
    [0x00000001, 0x00000101, 0x00000201, 0x00000002, 0x00000102, 0x00000003, 0x00000103, 0x00000203,
     0x00000004, 0x00000104, 0x00000204, 0x00000205, 0x00000206, 0x00000207, 0x00000008, 0x00000108]
  (∀ d : Descriptor, (∃ i, decode d = .ok i) ↔ d.cw ∈ legal) ∧
  ∀ (s : State) (d : Descriptor) (rest : List HostInput),
    s.pending = .command d :: rest → d.cw ∉ legal →
    step s = .next
      { s with pending := rest, responses := s.responses ++ [.fault .illegalCmd] }

/-! ### The step -/

/-- A step takes the next descriptor from the port and runs the command it decodes to (R68, R72, R96). The
port as a list held in the state is the model's (log 2). -/
def Obligations.StepRunsDecodedCommand : Prop :=
  ∀ (s : State) (d : Descriptor) (rest : List HostInput) (i : Instr),
    s.pending = .command d :: rest → decode d = .ok i →
    i.wellFormed = true ∧ step s = exec i { s with pending := rest }

/-- What `decodeTableWord` reads from a word, `step` runs at once on the state that has it as the next
command (log 2). -/
def Obligations.FetchWordRunsInstruction : Prop :=
  ∀ (s : State) (nbits w : Nat) (i : Instr),
    decodeTableWord nbits w = some i → step (s.withFetchWord nbits w) = exec i s

/-- No input stops the machine: "every command runs to its response" (R240), "every command terminates"
(R266). -/
def Obligations.StepAlwaysAnswers : Prop :=
  (∀ s : State, ∃ t, step s = .next t) ∧ ∀ (i : Instr) (s : State), ∃ t, exec i s = .next t

/-- "Every command ends with exactly one response" (R90), its code one of 0x00 to 0x05, and the lengths
of an `OK` payload are those of R90's table, for DIGEST.512 `DLEN(1)`, a parameter (D3). That responses are kept as a list is the model's (log 3). -/
def Obligations.OneResponsePerCommand : Prop :=
  (∀ (s : State) (d : Descriptor) (rest : List HostInput), s.pending = .command d :: rest →
    ∃ t r, step s = .next t ∧ t.pending = rest ∧ t.responses = s.responses ++ [r]) ∧
  (∀ r : Response, r.code.toNat ≤ 5 ∧ (r.code ≠ 0 → r.payload = [])) ∧
  ∀ (i : Instr) (s t : State) (p : List Byte), i.wellFormed = true → exec i s = .next t →
    t.responses = s.responses ++ [.ok p] →
    match i with
    | .digest256 => p.length = 32
    | .digest512 => p.length = s.params.dlen512.val
    | .lenc _ => 2 ≤ p.length ∧ p.length ≤ 9
    | .renc _ => 2 ≤ p.length ∧ p.length ≤ 9
    | .loadw32 _ _ => p.length = 4
    | .loadw64 _ _ => p.length = 8
    | .digestTup => p = Config.xofDigest s.params.tup s.xlog
    | .reset256 | .reset512 | .resetTup | .ingest256 _ _ | .ingest512 _ _ => p = []
    | .finalize256 | .finalize512 | .finalizeTup | .nextdata _ _ => p = []

/-- With nothing issued the block "is idle between commands and loses nothing while idle" (R245), and the
reset pin "has the effect of power-on on all three units at once" (R261). That the pin leaves `XLOG`,
caller memory, the responses and the parameters alone is the model's (log 8). -/
def Obligations.IdleAndResetPin : Prop :=
  (∀ s : State, s.pending = [] → step s = .next s) ∧
  ∀ (s : State) (rest : List HostInput), s.pending = .resetPin :: rest →
    step s = .next
      { s with
        e256 := { h := s.params.iv256, buf := [], count := 0, life := .fresh }
        e512 := { h := s.params.iv512, buf := [], count := 0, life := .fresh }
        tup := { life := .fresh }
        pending := rest }

/-- A host's store between two commands is seen by every later read (R73, R92): the stored bytes at their
addresses, every other byte as before, and nothing of the block changed. Stores as steps of the machine
are the model's (log 2, 12). -/
def Obligations.HostStoreReadBack : Prop :=
  ∀ (s : State) (addr : Nat) (bytes : List Byte) (rest : List HostInput),
    Memory.wf s.mem → addr + bytes.length ≤ 2 ^ 64 →
    s.pending = .store addr bytes :: rest →
    ∃ m, step s = .next { s with mem := m, pending := rest } ∧ Memory.wf m ∧
      memRead m addr bytes.length = bytes ∧
      ∀ x, x < addr ∨ addr + bytes.length ≤ x → Memory.read m x = Memory.read s.mem x

/-! ### Invariants and whole-machine rules -/

/-- Every step keeps the invariant: `len(BUF) < B` (R35), `COUNT <= MAXCOUNT` (R21), `BUFLEN = COUNT mod B`
or 0 (R37), a Fresh engine as construction leaves it (R39), caller memory canonical (log 1). -/
def Obligations.StepKeepsInvariant : Prop :=
  ∀ s t : State, s.Inv → step s = .next t → t.Inv

/-- The power-on state meets the invariant, whatever the construction parameters (R48, R260). -/
def Obligations.PowerOnMeetsInvariant : Prop :=
  (∀ p : Params, (State.powerOn p).Inv) ∧ State.reset.Inv

/-- "`XLOG` is append-only: no command removes or rewrites an event, RESET.TUP included (it appends
`XReset`)" (R45). The first clause is over every step, a host store and the reset pin included: that these
leave `XLOG` as it is is the model's (log 8, 12). -/
def Obligations.XlogAppendOnly : Prop :=
  (∀ s t : State, step s = .next t → ∃ events, t.xlog = s.xlog ++ events) ∧
  (∀ (i : Instr) (s t : State), exec i s = .next t → ∃ events, t.xlog = s.xlog ++ events) ∧
  ∀ s t : State, exec .resetTup s = .next t → t.xlog = s.xlog ++ [.xReset]

/-- No command writes caller memory (R67), changes the construction parameters (R43) or touches what is
still to be issued (R72). -/
def Obligations.CommandsLeaveInputsAlone : Prop :=
  ∀ (i : Instr) (s t : State), exec i s = .next t →
    (∀ x, Memory.read t.mem x = Memory.read s.mem x) ∧ t.mem = s.mem ∧
    t.params = s.params ∧ t.pending = s.pending

/-- INGEST and NEXTDATA read `[A, A + L)`, LOADW reads the `ws` bytes of its word, and "No other command
touches `M`" (R62, R69): what caller memory holds elsewhere changes nothing. -/
def Obligations.CommandReadsOnlyItsRange : Prop :=
  ∀ (i : Instr) (s t : State) (m : Memory),
    (∀ x, (readRange i).1 ≤ x → x < (readRange i).1 + (readRange i).2 →
      Memory.read m x = Memory.read s.mem x) →
    exec i s = .next t → exec i { s with mem := m } = .next { t with mem := m }

/-- "A command addresses one unit and changes that unit only" (R77); LOADW, LENC and RENC change none, and
`XLOG` is written by unit 2 only (R242). -/
def Obligations.CommandChangesOnlyItsUnit : Prop :=
  ∀ (i : Instr) (s t : State), exec i s = .next t →
    (addressedUnit i ≠ some .e256 → t.e256 = s.e256) ∧
    (addressedUnit i ≠ some .e512 → t.e512 = s.e512) ∧
    (addressedUnit i ≠ some .tup → t.tup = s.tup ∧ t.xlog = s.xlog)

/-- "Each unit's state evolves as if the other commands were not there" (R242): the new state of the
addressed unit and the response depend on that unit, caller memory and the parameters alone. -/
def Obligations.UnitEvolvesOnItsOwn : Prop :=
  ∀ (i : Instr) (s s' t t' : State), s.mem = s'.mem → s.params = s'.params →
    exec i s = .next t → exec i s' = .next t' →
    (addressedUnit i = some .e256 → s.e256 = s'.e256 → t.e256 = t'.e256 ∧
      ∃ r, t.responses = s.responses ++ [r] ∧ t'.responses = s'.responses ++ [r]) ∧
    (addressedUnit i = some .e512 → s.e512 = s'.e512 → t.e512 = t'.e512 ∧
      ∃ r, t.responses = s.responses ++ [r] ∧ t'.responses = s'.responses ++ [r]) ∧
    (addressedUnit i = some .tup → s.tup = s'.tup → s.xlog = s'.xlog →
      t.tup = t'.tup ∧ t.xlog = t'.xlog ∧
      ∃ r, t.responses = s.responses ++ [r] ∧ t'.responses = s'.responses ++ [r]) ∧
    (addressedUnit i = none →
      ∃ r, t.responses = s.responses ++ [r] ∧ t'.responses = s'.responses ++ [r])

/-- "The only way out of `Faulted` is RESET of that unit" (R239), or the reset pin (R261). -/
def Obligations.OnlyResetLeavesFaulted : Prop :=
  ∀ (s t : State) (u : UnitId), step s = .next t → s.life u = .faulted → t.life u ≠ .faulted →
    t.life u = .fresh ∧
      ((∃ d rest, s.pending = .command d :: rest ∧ decode d = .ok (resetCommand u)) ∨
        ∃ rest, s.pending = .resetPin :: rest)

/-- "Faults are precise: either a command has all its effects and answers `OK`, or it has none but this
one": a fault changes `LIFE` of the addressed unit to Faulted for MISUSE, ADDR_RANGE and LEN_OVERFLOW, and
nothing else (R238). All its effects: the state `completed` gives, which leaves out the checks alone. -/
def Obligations.FaultsArePrecise : Prop :=
  ∀ (i : Instr) (s t : State), exec i s = .next t →
    t = completed i s ∨
    ∃ f : FaultCode, t.responses = s.responses ++ [.fault f] ∧
      { t.e256 with life := s.e256.life } = s.e256 ∧
      { t.e512 with life := s.e512.life } = s.e512 ∧
      t.xlog = s.xlog ∧ t.mem = s.mem ∧ t.params = s.params ∧ t.pending = s.pending ∧
      ∀ u, t.life u =
        if addressedUnit i = some u ∧ (f = .misuse ∨ f = .addrRange ∨ f = .lenOverflow)
        then .faulted else s.life u

/-- `LIFE` moves only along the arrows of R100's table: back to Fresh, on to Accepting, on to Finalized,
and into Faulted (R100, R107, R238). -/
def Obligations.LifecycleArrowsOnly : Prop :=
  ∀ (s t : State) (u : UnitId), step s = .next t →
    t.life u = s.life u ∨ t.life u = .fresh ∨
    (t.life u = .accepting ∧ s.life u = .fresh) ∨
    (t.life u = .finalized ∧ (s.life u = .fresh ∨ s.life u = .accepting)) ∨
    (t.life u = .faulted ∧ s.life u ≠ .faulted)

/-- "`Fresh` and `Accepting` differ in name only: every command behaves the same in both, and no response
tells them apart" (R39). -/
def Obligations.FreshAcceptingAlike : Prop :=
  ∀ (i : Instr) (s s' t t' : State), s.merge = s'.merge →
    exec i s = .next t → exec i s' = .next t' → t.merge = t'.merge

/-- `H`, `BUF` and `COUNT` of a Faulted engine "are not observable" (R238, U10): whatever they are, every
command answers the same and changes everything else the same way, and RESET overwrites them. -/
def Obligations.FaultedDataUnobservable : Prop :=
  (∀ (i : Instr) (s t t' : State) (e : Engine 32 64),
    s.e256.life = .faulted → e.life = .faulted →
    exec i s = .next t → exec i { s with e256 := e } = .next t' →
    t' = t ∧ i = .reset256 ∨ t' = { t with e256 := e } ∧ t.e256 = s.e256) ∧
  (∀ (i : Instr) (s t t' : State) (e : Engine 64 128),
    s.e512.life = .faulted → e.life = .faulted →
    exec i s = .next t → exec i { s with e512 := e } = .next t' →
    t' = t ∧ i = .reset512 ∨ t' = { t with e512 := e } ∧ t.e512 = s.e512)

/-! ### RESET and DIGEST -/

/-- RESET.256 (R102), in every lifecycle state: unit 0 as construction leaves it, everything else untouched. -/
def Obligations.Reset256Completes : Prop :=
  (∀ l a : Nat, decode (descriptor l a 0x00000001) = .ok .reset256) ∧
  ∀ s : State, exec .reset256 s = .next
    { s with
      e256 := { h := s.params.iv256, buf := [], count := 0, life := .fresh }
      responses := s.responses ++ [.ok []] }

/-- RESET.512 (R103), in every lifecycle state. -/
def Obligations.Reset512Completes : Prop :=
  (∀ l a : Nat, decode (descriptor l a 0x00000101) = .ok .reset512) ∧
  ∀ s : State, exec .reset512 s = .next
    { s with
      e512 := { h := s.params.iv512, buf := [], count := 0, life := .fresh }
      responses := s.responses ++ [.ok []] }

/-- RESET.TUP (R208), in every lifecycle state: the event, `LIFE`, and nothing else; the stream is empty
from then on. -/
def Obligations.ResetTupCompletes : Prop :=
  (∀ l a : Nat, decode (descriptor l a 0x00000201) = .ok .resetTup) ∧
  ∀ s : State,
    exec .resetTup s = .next
      { s with
        tup := { life := .fresh }
        xlog := s.xlog ++ [.xReset]
        responses := s.responses ++ [.ok []] } ∧
    xStream (s.xlog ++ [.xReset]) = []

/-- "For units 0 and 1 the state after RESET is equal, field by field, to the power-on state, whatever
came before" (R262). -/
def Obligations.ResetEqualsPowerOn : Prop :=
  ∀ s : State,
    (∃ t, exec .reset256 s = .next t ∧ t.e256 = (State.powerOn s.params).e256) ∧
    (∃ t, exec .reset512 s = .next t ∧ t.e512 = (State.powerOn s.params).e512)

/-- DIGEST.256 (R104): in Finalized the 32 bytes of the eight words, and no state changes; MISUSE in Fresh
and Accepting, UNIT_FAULTED in Faulted. -/
def Obligations.Digest256Completes : Prop :=
  (∀ l a : Nat, decode (descriptor l a 0x00000004) = .ok .digest256) ∧
  ∀ s : State,
    (s.e256.life = .finalized →
      exec .digest256 s = .next
        { s with
          responses := s.responses ++
            [.ok (toBE 4 s.e256.h.h0.toNat ++ toBE 4 s.e256.h.h1.toNat ++
              toBE 4 s.e256.h.h2.toNat ++ toBE 4 s.e256.h.h3.toNat ++ toBE 4 s.e256.h.h4.toNat ++
              toBE 4 s.e256.h.h5.toNat ++ toBE 4 s.e256.h.h6.toNat ++
              toBE 4 s.e256.h.h7.toNat)] }) ∧
    (s.e256.life = .fresh ∨ s.e256.life = .accepting → exec .digest256 s = .next
      { s with
        e256 := { s.e256 with life := .faulted }
        responses := s.responses ++ [.fault .misuse] }) ∧
    (s.e256.life = .faulted → exec .digest256 s = .next
      { s with responses := s.responses ++ [.fault .unitFaulted] })

/-- DIGEST.512 (R105): in Finalized the first `DLEN(1)` bytes of the serialised state, with the default of
28 "3 full 64-bit words + 4 bytes of a 4th", and no state changes; MISUSE in Fresh and Accepting, UNIT_FAULTED
in Faulted. That `DLEN(1)` is a parameter is D3's. -/
def Obligations.Digest512Completes : Prop :=
  (∀ l a : Nat, decode (descriptor l a 0x00000104) = .ok .digest512) ∧
  State.reset.params.dlen512 = 28 ∧
  ∀ s : State,
    (s.e512.life = .finalized →
      let bytes := toBE 8 s.e512.h.h0.toNat ++ toBE 8 s.e512.h.h1.toNat ++
        toBE 8 s.e512.h.h2.toNat ++ toBE 8 s.e512.h.h3.toNat ++ toBE 8 s.e512.h.h4.toNat ++
        toBE 8 s.e512.h.h5.toNat ++ toBE 8 s.e512.h.h6.toNat ++ toBE 8 s.e512.h.h7.toNat
      let payload := bytes.take s.params.dlen512.val
      exec .digest512 s = .next { s with responses := s.responses ++ [.ok payload] } ∧
      (s.params.dlen512 = 28 →
        payload = toBE 8 s.e512.h.h0.toNat ++ toBE 8 s.e512.h.h1.toNat ++
          toBE 8 s.e512.h.h2.toNat ++ toBE 4 (s.e512.h.h3.toNat / 2 ^ 32))) ∧
    (s.e512.life = .fresh ∨ s.e512.life = .accepting → exec .digest512 s = .next
      { s with
        e512 := { s.e512 with life := .faulted }
        responses := s.responses ++ [.fault .misuse] }) ∧
    (s.e512.life = .faulted → exec .digest512 s = .next
      { s with responses := s.responses ++ [.fault .unitFaulted] })

/-- DIGEST.TUP (R207): in Fresh, Accepting and Finalized the external primitive's answer to the log before
the read, whatever that is, and the event; UNIT_FAULTED in Faulted. -/
def Obligations.DigestTupCompletes : Prop :=
  (∀ l a : Nat, decode (descriptor l a 0x00000204) = .ok .digestTup) ∧
  ∀ s : State,
    (s.tup.life ≠ .faulted →
      exec .digestTup s = .next
        { s with
          xlog := s.xlog ++ [.xRead]
          responses := s.responses ++ [.ok (Config.xofDigest s.params.tup s.xlog)] }) ∧
    (s.tup.life = .faulted → exec .digestTup s = .next
      { s with responses := s.responses ++ [.fault .unitFaulted] })

/-! ### INGEST -/

/-- INGEST.256 (R126, R128). Where it executes, with `S = BUF ++ data`: one compression for each of the
`floor((BUFLEN + L) / 64)` blocks of `S`, the tail of `S` in `BUF`, `COUNT` grown by `L`. Where it is refused,
in the order of the checks: UNIT_FAULTED, MISUSE, ADDR_RANGE, LEN_OVERFLOW. -/
def Obligations.Ingest256Completes : Prop :=
  (∀ a l : Nat, a < 2 ^ 64 → l < 2 ^ 64 →
    decode (descriptor l a 0x00000002) = .ok (.ingest256 a l)) ∧
  ∀ (s : State) (a l : Nat),
    (s.e256.life = .fresh ∨ s.e256.life = .accepting → s.e256.buf.length < 64 →
      Readable s.params.holes a l → s.e256.count.toNat + l ≤ 2 ^ 61 - 1 →
      let data := s.e256.buf ++ memRead s.mem a l
      let q := (s.e256.buf.length + l) / 64
      exec (.ingest256 a l) s = .next
        { s with
          e256 :=
            { h := compressBlocks sha256 q s.e256.h data
              buf := data.drop (64 * q)
              count := BitVec.ofNat 64 (s.e256.count.toNat + l)
              life := .accepting }
          responses := s.responses ++ [.ok []] }) ∧
    (s.e256.life = .faulted → exec (.ingest256 a l) s = .next
      { s with responses := s.responses ++ [.fault .unitFaulted] }) ∧
    (s.e256.life = .finalized → exec (.ingest256 a l) s = .next
      { s with
        e256 := { s.e256 with life := .faulted }
        responses := s.responses ++ [.fault .misuse] }) ∧
    (s.e256.life = .fresh ∨ s.e256.life = .accepting → ¬Readable s.params.holes a l →
      exec (.ingest256 a l) s = .next
        { s with
          e256 := { s.e256 with life := .faulted }
          responses := s.responses ++ [.fault .addrRange] }) ∧
    (s.e256.life = .fresh ∨ s.e256.life = .accepting → Readable s.params.holes a l →
      2 ^ 61 - 1 < s.e256.count.toNat + l →
      exec (.ingest256 a l) s = .next
        { s with
          e256 := { s.e256 with life := .faulted }
          responses := s.responses ++ [.fault .lenOverflow] })

/-- INGEST.512 (R127, R128). Where it executes, with `S = BUF ++ data`: one compression for each of the
`floor((BUFLEN + L) / 128)` blocks of `S`, the tail of `S` in `BUF`, `COUNT` grown by `L`. Where it is refused,
in the order of the checks: UNIT_FAULTED, MISUSE, ADDR_RANGE, LEN_OVERFLOW. -/
def Obligations.Ingest512Completes : Prop :=
  (∀ a l : Nat, a < 2 ^ 64 → l < 2 ^ 64 →
    decode (descriptor l a 0x00000102) = .ok (.ingest512 a l)) ∧
  ∀ (s : State) (a l : Nat),
    (s.e512.life = .fresh ∨ s.e512.life = .accepting → s.e512.buf.length < 128 →
      Readable s.params.holes a l → s.e512.count.toNat + l ≤ 2 ^ 125 - 1 →
      let data := s.e512.buf ++ memRead s.mem a l
      let q := (s.e512.buf.length + l) / 128
      exec (.ingest512 a l) s = .next
        { s with
          e512 :=
            { h := compressBlocks sha512t q s.e512.h data
              buf := data.drop (128 * q)
              count := BitVec.ofNat 128 (s.e512.count.toNat + l)
              life := .accepting }
          responses := s.responses ++ [.ok []] }) ∧
    (s.e512.life = .faulted → exec (.ingest512 a l) s = .next
      { s with responses := s.responses ++ [.fault .unitFaulted] }) ∧
    (s.e512.life = .finalized → exec (.ingest512 a l) s = .next
      { s with
        e512 := { s.e512 with life := .faulted }
        responses := s.responses ++ [.fault .misuse] }) ∧
    (s.e512.life = .fresh ∨ s.e512.life = .accepting → ¬Readable s.params.holes a l →
      exec (.ingest512 a l) s = .next
        { s with
          e512 := { s.e512 with life := .faulted }
          responses := s.responses ++ [.fault .addrRange] }) ∧
    (s.e512.life = .fresh ∨ s.e512.life = .accepting → Readable s.params.holes a l →
      2 ^ 125 - 1 < s.e512.count.toNat + l →
      exec (.ingest512 a l) s = .next
        { s with
          e512 := { s.e512 with life := .faulted }
          responses := s.responses ++ [.fault .lenOverflow] })

/-- A zero-length INGEST (R129): in Fresh and Accepting, at any address, `H`, `BUF` and `COUNT` are
unchanged and `LIFE` becomes Accepting; in Finalized it is MISUSE like any other, in Faulted
UNIT_FAULTED. -/
def Obligations.ZeroLengthIngest : Prop :=
  ∀ (s : State) (a : Nat), s.e256.Inv sha256 s.params.iv256 → s.e512.Inv sha512t s.params.iv512 →
    (s.e256.life = .fresh ∨ s.e256.life = .accepting → exec (.ingest256 a 0) s = .next
      { s with
        e256 := { s.e256 with life := .accepting }
        responses := s.responses ++ [.ok []] }) ∧
    (s.e512.life = .fresh ∨ s.e512.life = .accepting → exec (.ingest512 a 0) s = .next
      { s with
        e512 := { s.e512 with life := .accepting }
        responses := s.responses ++ [.ok []] }) ∧
    (s.e256.life = .finalized → exec (.ingest256 a 0) s = .next
      { s with
        e256 := { s.e256 with life := .faulted }
        responses := s.responses ++ [.fault .misuse] }) ∧
    (s.e512.life = .finalized → exec (.ingest512 a 0) s = .next
      { s with
        e512 := { s.e512 with life := .faulted }
        responses := s.responses ++ [.fault .misuse] }) ∧
    (s.e256.life = .faulted → exec (.ingest256 a 0) s = .next
      { s with responses := s.responses ++ [.fault .unitFaulted] }) ∧
    (s.e512.life = .faulted → exec (.ingest512 a 0) s = .next
      { s with responses := s.responses ++ [.fault .unitFaulted] })

/-- The four steps of R123, which the machine runs, compute the state of the shorter form of R125, for
any block size and any compression function. -/
def Obligations.FourStepsEqualShortForm : Prop :=
  ∀ (w c : Nat) (F : Family w) (e : Engine w c) (data : List Byte),
    e.buf.length < F.blockBytes → ingest F e data = ingestShort F e data

/-- Chunking invariance (R131): INGEST of `data1` and then of `data2` leaves exactly the state that one
INGEST of `data1 ++ data2` leaves, provided neither sequence faults. -/
def Obligations.ChunkingInvariance : Prop :=
  (∀ (s s1 s2 t : State) (a l a1 l1 a2 l2 : Nat), s.e256.buf.length < 64 →
    memRead s.mem a l = memRead s.mem a1 l1 ++ memRead s.mem a2 l2 →
    exec (.ingest256 a1 l1) s = .next s1 → exec (.ingest256 a2 l2) s1 = .next s2 →
    exec (.ingest256 a l) s = .next t →
    s1.e256.life = .accepting → s2.e256.life = .accepting → t.e256.life = .accepting →
    s2.e256 = t.e256) ∧
  (∀ (s s1 s2 t : State) (a l a1 l1 a2 l2 : Nat), s.e512.buf.length < 128 →
    memRead s.mem a l = memRead s.mem a1 l1 ++ memRead s.mem a2 l2 →
    exec (.ingest512 a1 l1) s = .next s1 → exec (.ingest512 a2 l2) s1 = .next s2 →
    exec (.ingest512 a l) s = .next t →
    s1.e512.life = .accepting → s2.e512.life = .accepting → t.e512.life = .accepting →
    s2.e512 = t.e512)

/-- The 128-bit counter of unit 1 in its two 64-bit halves: an addition carries from the low half into the
high half (R21, R124). -/
def Obligations.WideCounterCarries : Prop :=
  ∀ (count : BitVec 128) (l : Nat), l < 2 ^ 64 → count.toNat + l ≤ 2 ^ 125 - 1 →
    let lo := (count.extractLsb' 0 64).toNat
    let hi := (count.extractLsb' 64 64).toNat
    count.toNat = hi * 2 ^ 64 + lo ∧
    ((addCount count l).extractLsb' 0 64).toNat = (lo + l) % 2 ^ 64 ∧
    ((addCount count l).extractLsb' 64 64).toNat = hi + (lo + l) / 2 ^ 64

/-! ### FINALIZE -/

/-- FINALIZE.256 (R143, R145, R146). Where it executes, with the padding of R140 as R142's table has it:
one block up to 55 buffered bytes, two from 56 on; `COUNT` unchanged, `BUF` discarded. MISUSE in Finalized,
UNIT_FAULTED in Faulted. -/
def Obligations.Finalize256Completes : Prop :=
  (∀ l a : Nat, decode (descriptor l a 0x00000003) = .ok .finalize256) ∧
  ∀ s : State,
    (s.e256.life = .fresh ∨ s.e256.life = .accepting → s.e256.buf.length < 64 →
      s.e256.count.toNat ≤ 2 ^ 61 - 1 →
      let n := s.e256.buf.length
      let z := if n ≤ 55 then 55 - n else 119 - n
      let p := s.e256.buf ++ [0x80] ++ List.replicate z 0 ++ toBE 8 (8 * s.e256.count.toNat)
      let h1 := compress256 s.e256.h (p.take 64)
      exec .finalize256 s = .next
        { s with
          e256 :=
            { h := if n ≤ 55 then h1 else compress256 h1 (p.drop 64)
              buf := []
              count := s.e256.count
              life := .finalized }
          responses := s.responses ++ [.ok []] }) ∧
    (s.e256.life = .finalized → exec .finalize256 s = .next
      { s with
        e256 := { s.e256 with life := .faulted }
        responses := s.responses ++ [.fault .misuse] }) ∧
    (s.e256.life = .faulted → exec .finalize256 s = .next
      { s with responses := s.responses ++ [.fault .unitFaulted] })

/-- FINALIZE.512 (R144, R145, R146). Where it executes, with the padding of R140 as R142's table has it:
one block up to 111 buffered bytes, two from 112 on; `COUNT` unchanged, `BUF` discarded. MISUSE in Finalized,
UNIT_FAULTED in Faulted. -/
def Obligations.Finalize512Completes : Prop :=
  (∀ l a : Nat, decode (descriptor l a 0x00000103) = .ok .finalize512) ∧
  ∀ s : State,
    (s.e512.life = .fresh ∨ s.e512.life = .accepting → s.e512.buf.length < 128 →
      s.e512.count.toNat ≤ 2 ^ 125 - 1 →
      let n := s.e512.buf.length
      let z := if n ≤ 111 then 111 - n else 239 - n
      let p := s.e512.buf ++ [0x80] ++ List.replicate z 0 ++ toBE 16 (8 * s.e512.count.toNat)
      let h1 := compress512 s.e512.h (p.take 128)
      exec .finalize512 s = .next
        { s with
          e512 :=
            { h := if n ≤ 111 then h1 else compress512 h1 (p.drop 128)
              buf := []
              count := s.e512.count
              life := .finalized }
          responses := s.responses ++ [.ok []] }) ∧
    (s.e512.life = .finalized → exec .finalize512 s = .next
      { s with
        e512 := { s.e512 with life := .faulted }
        responses := s.responses ++ [.fault .misuse] }) ∧
    (s.e512.life = .faulted → exec .finalize512 s = .next
      { s with responses := s.responses ++ [.fault .unitFaulted] })

/-- The padded buffer (R140, R142): one block or two, the marker at index `BUFLEN`, zeros, and the exact
bit count in the last `LF` bytes. -/
def Obligations.PaddingShape : Prop :=
  (∀ (buf : List Byte) (count : Nat), buf.length < 64 → count ≤ 2 ^ 61 - 1 →
    let p := pad sha256 buf count
    p.length = (if buf.length ≤ 55 then 64 else 128) ∧
    p.take buf.length = buf ∧ p[buf.length]? = some 0x80 ∧
    (∀ j, buf.length < j → j < p.length - 8 → p[j]? = some 0) ∧
    be (p.drop (p.length - 8)) = 8 * count) ∧
  (∀ (buf : List Byte) (count : Nat), buf.length < 128 → count ≤ 2 ^ 125 - 1 →
    let p := pad sha512t buf count
    p.length = (if buf.length ≤ 111 then 128 else 256) ∧
    p.take buf.length = buf ∧ p[buf.length]? = some 0x80 ∧
    (∀ j, buf.length < j → j < p.length - 16 → p[j]? = some 0) ∧
    be (p.drop (p.length - 16)) = 8 * count)

/-- The 16-byte length field in halves: "the three bits shifted out of the top of `COUNT_LO` enter the
bottom of the high half" (R141, R21). -/
def Obligations.WideLengthField : Prop :=
  ∀ count : Nat, count ≤ 2 ^ 125 - 1 →
    let lo := count % 2 ^ 64
    let hi := count / 2 ^ 64
    lengthBytes 16 count =
      toBE 8 ((8 * hi + lo / 2 ^ 61) % 2 ^ 64) ++ toBE 8 (8 * lo % 2 ^ 64)

/-- The whole hash of unit 0 (R147, R95) over any way of cutting the message into INGEST commands (R131):
RESET.256, INGEST.256 of each chunk, FINALIZE.256 and DIGEST.256 answer OK throughout and end with
`Hash(0, T)`, whatever the state they start in. -/
def Obligations.WholeHash256 : Prop :=
  ∀ (s : State) (chunks : List (Nat × Nat)),
    (∀ c ∈ chunks, Readable s.params.holes c.1 c.2) →
    let msg := chunks.flatMap fun c => memRead s.mem c.1 c.2
    msg.length ≤ 2 ^ 61 - 1 →
    ∃ t, execAll (.reset256 :: chunks.map (fun c => .ingest256 c.1 c.2) ++
          [.finalize256, .digest256]) s = .next t ∧
      t.responses = s.responses ++ List.replicate (chunks.length + 2) (.ok []) ++
        [.ok (hashMessage sha256 dlen256 s.params.iv256 msg)] ∧
      t.e512 = s.e512 ∧ t.tup = s.tup ∧ t.xlog = s.xlog ∧ t.mem = s.mem

/-- The whole hash of unit 1 (R147, R95, R131). -/
def Obligations.WholeHash512 : Prop :=
  ∀ (s : State) (chunks : List (Nat × Nat)),
    (∀ c ∈ chunks, Readable s.params.holes c.1 c.2) →
    let msg := chunks.flatMap fun c => memRead s.mem c.1 c.2
    msg.length ≤ 2 ^ 125 - 1 →
    ∃ t, execAll (.reset512 :: chunks.map (fun c => .ingest512 c.1 c.2) ++
          [.finalize512, .digest512]) s = .next t ∧
      t.responses = s.responses ++ List.replicate (chunks.length + 2) (.ok []) ++
        [.ok (hashMessage sha512t s.params.dlen512.val s.params.iv512 msg)] ∧
      t.e256 = s.e256 ∧ t.tup = s.tup ∧ t.xlog = s.xlog ∧ t.mem = s.mem

/-! ### Compression -/

/-- `Compress(0, H, blk)` as R160 to R166 describe it, round by round: message words through the loader,
the schedule recurrence, 64 simultaneous assignments of eight registers, feed-forward. The round constants
are the model's table `k256`. -/
def Obligations.Compress256ByRounds : Prop :=
  ∀ (h : HashState 32) (blk : List Byte), blk.length = 64 →
    ∃ (W : Nat → Word32) (reg : Nat → Regs 32),
      (∀ t, t < 16 → (W t).toNat = be ((blk.drop (4 * t)).take 4)) ∧
      (∀ t, 16 ≤ t → t < 64 →
        W t =
          ((W (t - 2)).rotateRight 17 ^^^ (W (t - 2)).rotateRight 19 ^^^ W (t - 2) >>> 10) +
          W (t - 7) +
          ((W (t - 15)).rotateRight 7 ^^^ (W (t - 15)).rotateRight 18 ^^^ W (t - 15) >>> 3) +
          W (t - 16)) ∧
      reg 0 = ⟨h.h0, h.h1, h.h2, h.h3, h.h4, h.h5, h.h6, h.h7⟩ ∧
      (∀ t, t < 64 →
        let r := reg t
        let t1 := r.h + (r.e.rotateRight 6 ^^^ r.e.rotateRight 11 ^^^ r.e.rotateRight 25) +
          ((r.e &&& r.f) ^^^ (~~~r.e &&& r.g)) + k256.getD t 0 + W t
        let t2 := (r.a.rotateRight 2 ^^^ r.a.rotateRight 13 ^^^ r.a.rotateRight 22) +
          ((r.a &&& r.b) ^^^ (r.a &&& r.c) ^^^ (r.b &&& r.c))
        reg (t + 1) = ⟨t1 + t2, r.a, r.b, r.c, r.d + t1, r.e, r.f, r.g⟩) ∧
      compress256 h blk =
        ⟨h.h0 + (reg 64).a, h.h1 + (reg 64).b, h.h2 + (reg 64).c, h.h3 + (reg 64).d,
         h.h4 + (reg 64).e, h.h5 + (reg 64).f, h.h6 + (reg 64).g, h.h7 + (reg 64).h⟩

/-- `Compress(1, H, blk)` as R180 to R186 describe it, round by round. The round constants are the
model's table `k512`. -/
def Obligations.Compress512ByRounds : Prop :=
  ∀ (h : HashState 64) (blk : List Byte), blk.length = 128 →
    ∃ (W : Nat → Word64) (reg : Nat → Regs 64),
      (∀ t, t < 16 → (W t).toNat = be ((blk.drop (8 * t)).take 8)) ∧
      (∀ t, 16 ≤ t → t < 80 →
        W t =
          ((W (t - 2)).rotateRight 19 ^^^ (W (t - 2)).rotateRight 61 ^^^ W (t - 2) >>> 6) +
          W (t - 7) +
          ((W (t - 15)).rotateRight 1 ^^^ (W (t - 15)).rotateRight 8 ^^^ W (t - 15) >>> 7) +
          W (t - 16)) ∧
      reg 0 = ⟨h.h0, h.h1, h.h2, h.h3, h.h4, h.h5, h.h6, h.h7⟩ ∧
      (∀ t, t < 80 →
        let r := reg t
        let t1 := r.h + (r.e.rotateRight 14 ^^^ r.e.rotateRight 18 ^^^ r.e.rotateRight 41) +
          ((r.e &&& r.f) ^^^ (~~~r.e &&& r.g)) + k512.getD t 0 + W t
        let t2 := (r.a.rotateRight 28 ^^^ r.a.rotateRight 34 ^^^ r.a.rotateRight 39) +
          ((r.a &&& r.b) ^^^ (r.a &&& r.c) ^^^ (r.b &&& r.c))
        reg (t + 1) = ⟨t1 + t2, r.a, r.b, r.c, r.d + t1, r.e, r.f, r.g⟩) ∧
      compress512 h blk =
        ⟨h.h0 + (reg 80).a, h.h1 + (reg 80).b, h.h2 + (reg 80).c, h.h3 + (reg 80).d,
         h.h4 + (reg 80).e, h.h5 + (reg 80).f, h.h6 + (reg 80).g, h.h7 + (reg 80).h⟩

/-! ### LOADW -/

/-- LOADW.32 (R121): the four bytes at `A + L x 4`, whatever `LIFE` of any unit is, and no state changes; as
a word they are big-endian. Where a byte lies at or past `2^64`, the index not being reduced modulo `2^64`, or
is not `MEM_VALID`, the answer is ADDR_RANGE and no state changes. -/
def Obligations.Loadw32Completes : Prop :=
  (∀ a i : Nat, a < 2 ^ 64 → i < 2 ^ 64 →
    decode (descriptor i a 0x00000008) = .ok (.loadw32 a i)) ∧
  ∀ (s : State) (a i : Nat),
    (a + i * 4 + 4 ≤ 2 ^ 64 →
      (∀ x, a + i * 4 ≤ x → x < a + i * 4 + 4 → memValid s.params.holes x = true) →
      let ea := a + i * 4
      let m := fun k => Memory.read s.mem (ea + k)
      exec (.loadw32 a i) s = .next
        { s with responses := s.responses ++ [.ok [m 0, m 1, m 2, m 3]] } ∧
      loadWord s.mem 4 ea =
        (m 0).toNat * 2 ^ 24 + (m 1).toNat * 2 ^ 16 + (m 2).toNat * 2 ^ 8 + (m 3).toNat) ∧
    (2 ^ 64 < a + i * 4 + 4 ∨
      (∃ x, a + i * 4 ≤ x ∧ x < a + i * 4 + 4 ∧ memValid s.params.holes x = false) →
      exec (.loadw32 a i) s = .next
        { s with responses := s.responses ++ [.fault .addrRange] })

/-- LOADW.64 (R122): the eight bytes at `A + L x 8`, whatever `LIFE` of any unit is, and no state changes; as
a word they are big-endian. Where a byte lies at or past `2^64`, the index not being reduced modulo `2^64`, or
is not `MEM_VALID`, the answer is ADDR_RANGE and no state changes. -/
def Obligations.Loadw64Completes : Prop :=
  (∀ a i : Nat, a < 2 ^ 64 → i < 2 ^ 64 →
    decode (descriptor i a 0x00000108) = .ok (.loadw64 a i)) ∧
  ∀ (s : State) (a i : Nat),
    (a + i * 8 + 8 ≤ 2 ^ 64 →
      (∀ x, a + i * 8 ≤ x → x < a + i * 8 + 8 → memValid s.params.holes x = true) →
      let ea := a + i * 8
      let m := fun k => Memory.read s.mem (ea + k)
      exec (.loadw64 a i) s = .next
        { s with responses := s.responses ++ [.ok [m 0, m 1, m 2, m 3, m 4, m 5, m 6, m 7]] } ∧
      loadWord s.mem 8 ea =
        ((m 0).toNat * 2 ^ 24 + (m 1).toNat * 2 ^ 16 + (m 2).toNat * 2 ^ 8 + (m 3).toNat) *
          2 ^ 32 +
        ((m 4).toNat * 2 ^ 24 + (m 5).toNat * 2 ^ 16 + (m 6).toNat * 2 ^ 8 + (m 7).toNat)) ∧
    (2 ^ 64 < a + i * 8 + 8 ∨
      (∃ x, a + i * 8 ≤ x ∧ x < a + i * 8 + 8 ∧ memValid s.params.holes x = false) →
      exec (.loadw64 a i) s = .next
        { s with responses := s.responses ++ [.fault .addrRange] })

/-! ### The length encoder and the tuple unit -/

/-- LENC (R203, R200, R201), in every lifecycle state: the payload is the shortest big-endian
encoding of `n`, of 1 to 8 bytes, behind one byte giving its length, and no state changes. -/
def Obligations.LencCompletes : Prop :=
  (∀ a n : Nat, n < 2 ^ 64 → decode (descriptor n a 0x00000206) = .ok (.lenc n)) ∧
  ∀ (s : State) (n : Nat), n < 2 ^ 64 →
    ∃ bytes : List Byte,
      exec (.lenc n) s = .next
        { s with responses := s.responses ++ [.ok (BitVec.ofNat 8 bytes.length :: bytes)] } ∧
      1 ≤ bytes.length ∧ bytes.length ≤ 8 ∧ be bytes = n ∧
      ∀ other : List Byte, 1 ≤ other.length → be other = n → bytes.length ≤ other.length

/-- RENC (R204, R200, R202), in every lifecycle state: the same encoding with its length byte at the
end. -/
def Obligations.RencCompletes : Prop :=
  (∀ a n : Nat, n < 2 ^ 64 → decode (descriptor n a 0x00000207) = .ok (.renc n)) ∧
  ∀ (s : State) (n : Nat), n < 2 ^ 64 →
    ∃ bytes : List Byte,
      exec (.renc n) s = .next
        { s with responses := s.responses ++ [.ok (bytes ++ [BitVec.ofNat 8 bytes.length])] } ∧
      1 ≤ bytes.length ∧ bytes.length ≤ 8 ∧ be bytes = n ∧
      ∀ other : List Byte, 1 ≤ other.length → be other = n → bytes.length ≤ other.length

/-- The inverse functions of R212 undo the encoders, for every number the encoders are defined on (R201:
`n < 256^255`), so both encoders are injective. -/
def Obligations.LengthDecodersInvert : Prop :=
  (∀ (n : Nat) (r : List Byte), n < 256 ^ 255 → leftDecode (leftEncode n ++ r) = (n, r)) ∧
  (∀ (n : Nat) (r : List Byte), n < 256 ^ 255 → rightDecode (r ++ rightEncode n) = (r, n))

/-- NEXTDATA (R205). Where it executes: the length in bits through `leftEncode`, formed without wrap, then
the element's bytes. Where it is refused no event is emitted: UNIT_FAULTED, MISUSE, ADDR_RANGE. -/
def Obligations.NextdataCompletes : Prop :=
  (∀ a l : Nat, a < 2 ^ 64 → l < 2 ^ 64 →
    decode (descriptor l a 0x00000205) = .ok (.nextdata a l)) ∧
  ∀ (s : State) (a l : Nat),
    (s.tup.life = .fresh ∨ s.tup.life = .accepting → Readable s.params.holes a l →
      exec (.nextdata a l) s = .next
        { s with
          tup := { life := .accepting }
          xlog := s.xlog ++ [.xAbsorb (leftEncode (8 * l)), .xAbsorb (memRead s.mem a l)]
          responses := s.responses ++ [.ok []] }) ∧
    (s.tup.life = .faulted → exec (.nextdata a l) s = .next
      { s with responses := s.responses ++ [.fault .unitFaulted] }) ∧
    (s.tup.life = .finalized → exec (.nextdata a l) s = .next
      { s with
        tup := { life := .faulted }
        responses := s.responses ++ [.fault .misuse] }) ∧
    (s.tup.life = .fresh ∨ s.tup.life = .accepting → ¬Readable s.params.holes a l →
      exec (.nextdata a l) s = .next
        { s with
          tup := { life := .faulted }
          responses := s.responses ++ [.fault .addrRange] })

/-- FINALIZE.TUP (R206). Where it executes: the output length in bits through `rightEncode`, then the
primitive's finalize. Where it is refused no event is emitted: MISUSE in Finalized, UNIT_FAULTED in Faulted. -/
def Obligations.FinalizeTupCompletes : Prop :=
  (∀ l a : Nat, decode (descriptor l a 0x00000203) = .ok .finalizeTup) ∧
  ∀ s : State,
    (s.tup.life = .fresh ∨ s.tup.life = .accepting →
      exec .finalizeTup s = .next
        { s with
          tup := { life := .finalized }
          xlog := s.xlog ++
            [.xAbsorb (rightEncode (8 * s.params.tup.outlenBytes.val)), .xFinalize]
          responses := s.responses ++ [.ok []] }) ∧
    (s.tup.life = .finalized → exec .finalizeTup s = .next
      { s with
        tup := { life := .faulted }
        responses := s.responses ++ [.fault .misuse] }) ∧
    (s.tup.life = .faulted → exec .finalizeTup s = .next
      { s with responses := s.responses ++ [.fault .unitFaulted] })

/-- The stream of a tuple (R209, R210, R95): RESET.TUP, NEXTDATA of each element in order and FINALIZE.TUP
answer OK throughout and leave `XStream` as R209 writes it, closed by `XFinalize`, whatever the state they
start in. -/
def Obligations.TupleStreamOfCommands : Prop :=
  ∀ (s : State) (elems : List (Nat × Nat)),
    (∀ e ∈ elems, Readable s.params.holes e.1 e.2) →
    ∃ t, execAll (.resetTup :: elems.map (fun e => .nextdata e.1 e.2) ++ [.finalizeTup]) s =
        .next t ∧
      t.responses = s.responses ++ List.replicate (elems.length + 2) (.ok []) ∧
      xStream t.xlog = tupleStream (elems.map fun e => memRead s.mem e.1 e.2)
        s.params.tup.outlenBytes.val ∧
      t.xlog.getLast? = some .xFinalize ∧ t.tup.life = .finalized ∧
      t.e256 = s.e256 ∧ t.e512 = s.e512 ∧ t.mem = s.mem

/-- "This produces an injective encoding of the tuple: no sequence of calls to `nextData` with different
element boundaries can produce the same underlying byte stream" (R209), for every element length and
output length the commands can give. -/
def Obligations.TupleStreamInjective : Prop :=
  ∀ (es es' : List (List Byte)) (n n' : Nat),
    (∀ e ∈ es, e.length < 2 ^ 64) → (∀ e ∈ es', e.length < 2 ^ 64) →
    n < 2 ^ 61 → n' < 2 ^ 61 →
    tupleStream es n = tupleStream es' n' → es = es' ∧ n = n'

/-- Right rotation by every amount below the width is R20's formula, "`ROTR_w(x, 0) = x`" among them, and
the formula is the rotation of the bits: bit `j` of the result is bit `(j + n) mod w` of `x`. -/
def Obligations.RotationLaw : Prop :=
  ∀ (w : Nat) (x : BitVec w) (n : Nat), n < w →
    (rotr x n).toNat = (x.toNat / 2 ^ n + x.toNat % 2 ^ n * 2 ^ (w - n)) % 2 ^ w ∧
    rotr x 0 = x ∧
    ∀ j, j < w → (rotr x n).getLsbD j = x.getLsbD ((j + n) % w)
end

