-- ==== Sys2Proof/Laws/Bytes.lean ====
section
/-!
SUPPORT. The laws of big-endian conversion (spec/00_scope.md R15) and of the minimal encoding
(spec/45_tuple_encoding.md R200 to R202).
-/
namespace Sys2Proof.Machine

@[simp] theorem zeros_length (n : Nat) : (zeros n).length = n := by simp [zeros]

@[simp] theorem toBE_zero (v : Nat) : toBE 0 v = [] := rfl

@[simp] theorem toBE_length (n v : Nat) : (toBE n v).length = n := by
  induction n with
  | zero => rfl
  | succ n ih => simp [toBE, ih]

@[simp] theorem be_nil : be [] = 0 := rfl

theorem foldl_be (s : List Byte) (acc : Nat) :
    s.foldl (fun acc b => acc * 256 + b.toNat) acc = acc * 256 ^ s.length + be s := by
  induction s generalizing acc with
  | nil => simp
  | cons b s ih =>
    simp only [be, List.foldl_cons, List.length_cons]
    rw [ih, ih (0 * 256 + b.toNat)]
    ring

theorem be_cons (b : Byte) (s : List Byte) : be (b :: s) = b.toNat * 256 ^ s.length + be s := by
  simp only [be, List.foldl_cons]
  rw [foldl_be]
  simp [be]

theorem be_append (s t : List Byte) : be (s ++ t) = be s * 256 ^ t.length + be t := by
  simp only [be, List.foldl_append]
  rw [foldl_be]
  simp [be]

theorem be_lt (s : List Byte) : be s < 256 ^ s.length := by
  induction s with
  | nil => simp
  | cons b s ih =>
    rw [be_cons, List.length_cons, pow_succ]
    have hb : b.toNat < 256 := b.isLt
    nlinarith

/-- `BE(ToBE_n(v))` is the low `n` bytes of `v`. -/
theorem be_toBE (n v : Nat) : be (toBE n v) = v % 256 ^ n := by
  induction n with
  | zero => simp [Nat.mod_one]
  | succ n ih =>
    rw [toBE, be_cons, ih, toBE_length, BitVec.toNat_ofNat, pow_succ (256 : Nat) n,
      Nat.mod_mul (a := 256 ^ n), Nat.add_comm, Nat.mul_comm]

theorem be_toBE_of_lt {n v : Nat} (h : v < 256 ^ n) : be (toBE n v) = v := by
  rw [be_toBE, Nat.mod_eq_of_lt h]

/-- Only the low `n` bytes of the number enter `ToBE_n`. -/
theorem toBE_mod (n v : Nat) : toBE n (v % 256 ^ n) = toBE n v := by
  have key : ∀ m n, n ≤ m → toBE n (v % 256 ^ m) = toBE n v := by
    intro m n
    induction n with
    | zero => intro _; rfl
    | succ n ih =>
      intro h
      rw [toBE, toBE, ih (by omega)]
      congr 1
      apply BitVec.eq_of_toNat_eq
      simp only [BitVec.toNat_ofNat]
      obtain ⟨k, rfl⟩ : ∃ k, m = n + (1 + k) := ⟨m - n - 1, by omega⟩
      rw [pow_add, Nat.mod_mul_right_div_self, pow_add, pow_one]
      exact Nat.mod_mul_right_mod _ _ _
  exact key n n le_rfl

theorem toBE_be (s : List Byte) : toBE s.length (be s) = s := by
  induction s with
  | nil => rfl
  | cons b s ih =>
    have h := be_lt s
    have hp : 0 < 256 ^ s.length := Nat.pow_pos (by decide)
    rw [List.length_cons, toBE]
    congr 1
    · apply BitVec.eq_of_toNat_eq
      rw [be_cons, BitVec.toNat_ofNat, Nat.mul_comm, Nat.mul_add_div hp, Nat.div_eq_of_lt h]
      have : b.toNat < 256 := b.isLt
      simp [Nat.mod_eq_of_lt this]
    · rw [← toBE_mod, be_cons, Nat.add_comm, Nat.add_mul_mod_self_right, Nat.mod_eq_of_lt h, ih]

/-- Two sequences of one length that stand for one number are one sequence (R15). -/
theorem be_injective {s t : List Byte} (hl : s.length = t.length) (h : be s = be t) : s = t := by
  rw [← toBE_be s, ← toBE_be t, hl, h]

@[simp] theorem minBE_length (n : Nat) : (minBE n).length = minBELen n := toBE_length _ _

theorem minBELen_pos (n : Nat) : 1 ≤ minBELen n := Nat.le_add_left _ _

theorem lt_pow_minBELen (n : Nat) : n < 256 ^ minBELen n := by
  have h : n < 2 ^ (n.log2 + 1) := Nat.lt_log2_self
  refine h.trans_le ?_
  rw [show (256 : Nat) = 2 ^ 8 from rfl, ← pow_mul, minBELen]
  exact Nat.pow_le_pow_right (by decide) (by omega)

theorem pow_minBELen_le {n : Nat} (h : n ≠ 0) : 256 ^ (minBELen n - 1) ≤ n := by
  refine le_trans ?_ (Nat.log2_self_le h)
  rw [show (256 : Nat) = 2 ^ 8 from rfl, ← pow_mul, minBELen]
  exact Nat.pow_le_pow_right (by decide) (by omega)

@[simp] theorem be_minBE (n : Nat) : be (minBE n) = n := be_toBE_of_lt (lt_pow_minBELen n)

theorem minBELen_le_of_lt {n k : Nat} (hk : 1 ≤ k) (h : n < 256 ^ k) : minBELen n ≤ k := by
  rcases Nat.eq_zero_or_pos n with rfl | hn
  · simpa [minBELen, Nat.log2_zero] using hk
  · by_contra hc
    have h1 := pow_minBELen_le (Nat.pos_iff_ne_zero.mp hn)
    have h2 : 256 ^ k ≤ 256 ^ (minBELen n - 1) := Nat.pow_le_pow_right (by decide) (by omega)
    omega

/-- `MinBE(n)` of an operand is the shortest encoding, of 1 to 8 bytes (R200). -/
theorem minBE_spec {n : Nat} (hn : n < 2 ^ 64) :
    1 ≤ (minBE n).length ∧ (minBE n).length ≤ 8 ∧ be (minBE n) = n ∧
      ∀ other : List Byte, 1 ≤ other.length → be other = n →
        (minBE n).length ≤ other.length := by
  refine ⟨by simpa using minBELen_pos n,
    by simpa using minBELen_le_of_lt (k := 8) (by decide) hn, be_minBE n, fun o h1 h2 => ?_⟩
  rw [minBE_length]
  exact minBELen_le_of_lt h1 (h2 ▸ be_lt o)

@[simp] theorem leftEncode_length (n : Nat) : (leftEncode n).length = minBELen n + 1 := by
  simp [leftEncode]

@[simp] theorem rightEncode_length (n : Nat) : (rightEncode n).length = minBELen n + 1 := by
  simp [rightEncode]

theorem leftEncode_ne_nil (n : Nat) : leftEncode n ≠ [] := by simp [leftEncode]

end Sys2Proof.Machine
end

