-- ==== Sys2Proof/Laws/Decode.lean ====
section
/-!
SUPPORT. The fields of a descriptor built from its fields (spec/30_encoding.md R80, R81).
-/
namespace Sys2Proof

@[simp] theorem descriptor_cw (l a : Nat) (cw : BitVec 32) : (descriptor l a cw).cw = cw := by
  unfold Descriptor.cw descriptor
  exact BitVec.extractLsb'_append_eq_right

theorem descriptor_a_bits (l a : Nat) (cw : BitVec 32) :
    (descriptor l a cw).extractLsb' 32 64 = BitVec.ofNat 64 a := by
  unfold descriptor
  rw [BitVec.extractLsb'_append_eq_of_le (by decide)]
  exact BitVec.extractLsb'_append_eq_right

theorem descriptor_l_bits (l a : Nat) (cw : BitVec 32) :
    (descriptor l a cw).extractLsb' 96 64 = BitVec.ofNat 64 l := by
  unfold descriptor
  rw [BitVec.extractLsb'_append_eq_of_le (by decide), BitVec.extractLsb'_append_eq_of_le (by decide)]
  exact BitVec.extractLsb'_eq_self

theorem descriptor_a {a : Nat} (h : a < 2 ^ 64) (l : Nat) (cw : BitVec 32) :
    (descriptor l a cw).a = a := by
  rw [Descriptor.a, descriptor_a_bits, BitVec.toNat_ofNat, Nat.mod_eq_of_lt h]

theorem descriptor_l {l : Nat} (h : l < 2 ^ 64) (a : Nat) (cw : BitVec 32) :
    (descriptor l a cw).l = l := by
  rw [Descriptor.l, descriptor_l_bits, BitVec.toNat_ofNat, Nat.mod_eq_of_lt h]

theorem descriptor_operands_lt (d : Descriptor) : d.a < 2 ^ 64 ∧ d.l < 2 ^ 64 :=
  ⟨BitVec.isLt _, BitVec.isLt _⟩

/-- What the decoder does, by the three fields of the command word. -/
theorem decode_descriptor {l a : Nat} (hl : l < 2 ^ 64) (ha : a < 2 ^ 64) (cw : BitVec 32) :
    decode (descriptor l a cw) =
      if cwRsv cw ≠ 0 then .error .reservedBits
      else if cwUnit cw = 3 then .error .reservedUnit
      else decodeRow (cwOp cw).toNat (cwUnit cw).toNat a l := by
  simp only [decode, descriptor_cw, descriptor_a ha, descriptor_l hl]

/-- What a decoded row fixes: the command's word gives back the operation and the unit, and operands that
fit give a well-formed command. -/
theorem decodeRow_ok {op unit a l : Nat} {i : Instr} (h : decodeRow op unit a l = .ok i) :
    (Instr.fits a → Instr.fits l → i.wellFormed = true) ∧ op = (commandWord i).toNat % 256 ∧
      unit = (commandWord i).toNat / 256 := by
  unfold decodeRow at h
  split at h <;> first
    | (obtain rfl := Except.ok.inj h
       refine ⟨fun h1 h2 => ?_, by simp [commandWord], by simp [commandWord]⟩
       simp_all [Instr.wellFormed])
    | (split at h <;> cases h)

/-- A command word with no reserved bit set is its unit and its operation. -/
theorem cw_fields (cw : BitVec 32) (h : cwRsv cw = 0) :
    cw.toNat = (cwUnit cw).toNat * 256 + (cwOp cw).toNat := by
  have h' := congrArg BitVec.toNat h
  simp only [cwRsv, cwUnit, cwOp, BitVec.extractLsb'_toNat, Nat.shiftRight_eq_div_pow] at *
  have := cw.isLt
  simp at h' ⊢
  omega

/-- A descriptor that decodes carries the command word of its command, and the command is well-formed. -/
theorem decode_ok {d : Descriptor} {i : Instr} (h : decode d = .ok i) :
    d.cw = commandWord i ∧ i.wellFormed = true := by
  unfold decode at h
  split at h
  · cases h
  · split at h
    · cases h
    · obtain ⟨hw, ho, hu⟩ := decodeRow_ok h
      have hr : cwRsv d.cw = 0 := by simpa using ‹¬cwRsv d.cw ≠ 0›
      constructor
      · apply BitVec.eq_of_toNat_eq
        rw [cw_fields _ hr, ho, hu]
        omega
      · have := descriptor_operands_lt d
        exact hw (by simpa [Instr.fits] using this.1) (by simpa [Instr.fits] using this.2)

end Sys2Proof
end

