-- ==== Sys2Proof/Laws/Hash.lean ====
section
/-!
SUPPORT. The laws of block consumption (spec/41_loader_and_ingest.md R123) and of padding
(spec/42_md_padding_finalize.md R140, R142).
-/
namespace Sys2Proof.Machine

variable {w c : Nat} (F : Family w)

@[simp] theorem compressBlocks_zero (h : HashState w) (d : List Byte) :
    compressBlocks F 0 h d = h := rfl

/-- Blocks are compressed one after another, each into the state the one before left. -/
theorem compressBlocks_add (p q : Nat) (h : HashState w) (d : List Byte) :
    compressBlocks F (p + q) h d =
      compressBlocks F q (compressBlocks F p h d) (d.drop (p * F.blockBytes)) := by
  induction p generalizing h d with
  | zero => simp
  | succ p ih =>
    rw [Nat.succ_add, compressBlocks, ih, compressBlocks, List.drop_drop, Nat.succ_mul,
      Nat.add_comm F.blockBytes]

/-- Only the blocks themselves are read. -/
theorem compressBlocks_append (q : Nat) (h : HashState w) (d e : List Byte)
    (hd : q * F.blockBytes ≤ d.length) :
    compressBlocks F q h (d ++ e) = compressBlocks F q h d := by
  induction q generalizing h d with
  | zero => rfl
  | succ q ih =>
    rw [Nat.succ_mul] at hd
    rw [compressBlocks, compressBlocks, List.take_append_of_le_length (by omega),
      List.drop_append_of_le_length (by omega), ih _ _ (by simp; omega)]

@[simp] theorem consumeBlocks_life (e : Engine w c) (d : List Byte) :
    (consumeBlocks F e d).life = e.life := rfl
@[simp] theorem consumeBlocks_count (e : Engine w c) (d : List Byte) :
    (consumeBlocks F e d).count = e.count := rfl

@[simp] theorem ingest_count (e : Engine w c) (d : List Byte) :
    (ingest F e d).count = addCount e.count d.length := rfl

@[simp] theorem finish_count (e : Engine w c) : (finish F e).count = e.count := rfl
@[simp] theorem finish_buf (e : Engine w c) : (finish F e).buf = [] := rfl
@[simp] theorem finish_life (e : Engine w c) : (finish F e).life = e.life := rfl

theorem addCount_toNat {c : Nat} {count : BitVec c} {l : Nat} (h : count.toNat + l < 2 ^ c) :
    (addCount count l).toNat = count.toNat + l := by
  simp only [addCount, BitVec.toNat_add, BitVec.toNat_ofNat, Nat.add_mod_mod]
  exact Nat.mod_eq_of_lt h

/-- The padded length before the fill is `B` or less, and the fill reaches `B - LF` modulo `B`. -/
theorem pad_length (buf : List Byte) (count : Nat) :
    (pad F buf count).length =
      buf.length + 1 + zeroFill F.blockBytes F.lengthField (buf.length + 1) + F.lengthField := by
  simp only [pad, lengthBytes, List.length_append, List.length_cons, List.length_nil, zeros_length,
    toBE_length]

/-- The zero bytes of unit 0's padding, one block or two (R140, R142). -/
theorem zeroFill_256 {n : Nat} (h : n < 64) :
    zeroFill 64 8 (n + 1) = if n ≤ 55 then 55 - n else 119 - n := by
  unfold zeroFill
  split <;> omega

/-- The zero bytes of unit 1's padding, one block or two (R140, R142). -/
theorem zeroFill_512 {n : Nat} (h : n < 128) :
    zeroFill 128 16 (n + 1) = if n ≤ 111 then 111 - n else 239 - n := by
  unfold zeroFill
  split <;> omega

@[simp] theorem sha256_blockBytes : sha256.blockBytes = 64 := rfl
@[simp] theorem sha256_lengthField : sha256.lengthField = 8 := rfl
@[simp] theorem sha256_maxCount : sha256.maxCount = 2 ^ 61 - 1 := rfl
@[simp] theorem sha256_compress : sha256.compress = compress256 := rfl
@[simp] theorem sha512t_blockBytes : sha512t.blockBytes = 128 := rfl
@[simp] theorem sha512t_lengthField : sha512t.lengthField = 16 := rfl
@[simp] theorem sha512t_maxCount : sha512t.maxCount = 2 ^ 125 - 1 := rfl
@[simp] theorem sha512t_compress : sha512t.compress = compress512 := rfl

/-- A digest has `DLEN` bytes, up to the eight words there are (R47). -/
theorem digest_length (n : Nat) (h : HashState w) :
    (digest n h).length = min n (8 * (w / 8)) := by
  simp [digest, HashState.words]
  omega
@[simp] theorem digest256_length (h : HashState 32) : (digest dlen256 h).length = 32 :=
  digest_length _ h
@[simp] theorem digest512_length (n : Fin 65) (h : HashState 64) :
    (digest n.val h).length = n.val := by
  rw [digest_length]
  omega

theorem extendSchedule_length (m : Mixer w) (n : Nat) (ws : List (BitVec w)) :
    (extendSchedule m n ws).length = ws.length + n := by
  induction n generalizing ws with
  | zero => rfl
  | succ n ih => rw [extendSchedule, ih]; simp; omega

/-- Extending a schedule keeps the words it has. -/
theorem extendSchedule_keeps (m : Mixer w) (n : Nat) (ws : List (BitVec w)) {t : Nat}
    (h : t < ws.length) : (extendSchedule m n ws).getD t 0 = ws.getD t 0 := by
  induction n generalizing ws with
  | zero => rfl
  | succ n ih =>
    rw [extendSchedule, ih _ (by simp; omega)]
    simp [List.getD_eq_getElem?_getD, List.getElem?_append_left h]

/-- The schedule recurrence holds of every word past the first sixteen (R164, R184). -/
theorem extendSchedule_rec (m : Mixer w) (n : Nat) (ws : List (BitVec w)) {t : Nat}
    (h1 : ws.length ≤ t) (h2 : t < ws.length + n) (h16 : 16 ≤ ws.length) :
    (extendSchedule m n ws).getD t 0 =
      m.ssig1 ((extendSchedule m n ws).getD (t - 2) 0) + (extendSchedule m n ws).getD (t - 7) 0 +
        m.ssig0 ((extendSchedule m n ws).getD (t - 15) 0) +
        (extendSchedule m n ws).getD (t - 16) 0 := by
  induction n generalizing ws with
  | zero => omega
  | succ n ih =>
    by_cases he : t = ws.length
    · subst he
      simp only [extendSchedule]
      have keep : ∀ i, i ≤ ws.length →
          (extendSchedule m n (ws ++ [nextScheduleWord m ws])).getD i 0 =
            (ws ++ [nextScheduleWord m ws]).getD i 0 :=
        fun i hi => extendSchedule_keeps _ _ _ (by simp; omega)
      have old : ∀ i, i < ws.length →
          (ws ++ [nextScheduleWord m ws]).getD i 0 = ws.getD i 0 := fun i hi => by
        simp [List.getD_eq_getElem?_getD, List.getElem?_append_left hi]
      have new : (ws ++ [nextScheduleWord m ws]).getD ws.length 0 = nextScheduleWord m ws := by
        simp [List.getD_eq_getElem?_getD]
      rw [keep _ le_rfl, keep _ (by omega), keep _ (by omega), keep _ (by omega),
        keep _ (by omega), new, old (ws.length - 2) (by omega), old (ws.length - 7) (by omega),
        old (ws.length - 15) (by omega), old (ws.length - 16) (by omega)]
      rfl
    · exact ih (ws ++ [nextScheduleWord m ws]) (by simp; omega) (by simp; omega) (by simp; omega)

/-- A fold over two lists side by side, read step by step. -/
theorem foldl_zip_steps {α β γ : Type} (f : γ → α × β → γ) (a : List α) (b : List β) (da : α)
    (db : β) (g : γ) (n : Nat) (ha : a.length = n) (hb : b.length = n) :
    ∃ r : Nat → γ, r 0 = g ∧
      (∀ t, t < n → r (t + 1) = f (r t) (a.getD t da, b.getD t db)) ∧
      (a.zip b).foldl f g = r n := by
  refine ⟨fun t => ((a.zip b).take t).foldl f g, rfl, fun t ht => ?_, ?_⟩
  · have hz : (a.zip b).length = n := by simp [ha, hb]
    have : t < (a.zip b).length := by omega
    simp only
    rw [List.take_succ_eq_append_getElem this, List.foldl_append]
    simp [List.getD_eq_getElem?_getD, ha, hb, ht]
  · simp only
    rw [List.take_of_length_le (by simp [ha, hb])]

@[simp] theorem messageWords_length (w : Nat) (blk : List Byte) :
    (messageWords w blk).length = 16 := by simp [messageWords]

/-- The stream after one more event (R210). -/
theorem xStream_append (log : List XofEvent) (e : XofEvent) :
    xStream (log ++ [e]) = absorb (xStream log) e := by
  simp [xStream]

end Sys2Proof.Machine
end

