-- ==== Sys2Proof/Laws/Memory.lean ====
section
/-!
SUPPORT. The laws of caller memory (spec/20_memory.md R60, R61): a read after a write, the canonical form,
and the range check against the per-address reading of the spec.
-/
namespace Sys2Proof.Machine

theorem wf_tail {k : Nat} {v : Byte} {m : Memory} (h : Memory.wf ((k, v) :: m)) : Memory.wf m :=
  ⟨(List.pairwise_cons.mp h.1).2, fun c hc => h.2 c (List.mem_cons_of_mem _ hc)⟩

theorem read_above {m : Memory} {a : Nat} (h : ∀ c ∈ m, a < c.1) :
    Memory.read m a = Memory.unlisted := by
  induction m with
  | nil => rfl
  | cons c m ih =>
    obtain ⟨k, v⟩ := c
    have hk := h (k, v) (by simp)
    have : k ≠ a := by simp at hk; omega
    simp only [Memory.read, this, if_false]
    exact ih fun c hc => h c (List.mem_cons_of_mem _ hc)

theorem read_cons_other {m : Memory} {a b : Nat} {v : Byte} (h : b ≠ a) :
    Memory.read (Memory.cons a v m) b = Memory.read m b := by
  unfold Memory.cons
  split
  · rfl
  · simp [Memory.read, h.symm]

theorem read_cons_same {m : Memory} {a : Nat} {v : Byte} (h : ∀ c ∈ m, a < c.1) :
    Memory.read (Memory.cons a v m) a = v := by
  unfold Memory.cons
  split
  · rw [read_above h, ‹v = _›]
  · simp [Memory.read]

/-- In a canonical memory every cell behind the first lies above it. -/
theorem wf_head_lt {k : Nat} {v : Byte} {m : Memory} (h : Memory.wf ((k, v) :: m)) :
    ∀ c ∈ m, k < c.1 := (List.pairwise_cons.mp h.1).1

theorem read_write_same {m : Memory} (h : Memory.wf m) (a : Nat) (v : Byte) :
    Memory.read (Memory.write m a v) a = v := by
  induction m with
  | nil => exact read_cons_same (by simp)
  | cons c m ih =>
    obtain ⟨k, x⟩ := c
    have hlt := wf_head_lt h
    unfold Memory.write
    split
    · refine read_cons_same fun c hc => ?_
      rcases List.mem_cons.mp hc with rfl | hc
      · assumption
      · exact lt_trans ‹a < k› (hlt c hc)
    · split
      · subst a
        exact read_cons_same hlt
      · simp only [Memory.read, Ne.symm ‹¬a = k›, if_false]
        exact ih (wf_tail h)

theorem read_write_other {m : Memory} {a b : Nat} (hb : b ≠ a) (v : Byte) :
    Memory.read (Memory.write m a v) b = Memory.read m b := by
  induction m with
  | nil => exact read_cons_other hb
  | cons c m ih =>
    obtain ⟨k, x⟩ := c
    unfold Memory.write
    split
    · exact read_cons_other hb
    · split
      · subst a
        rw [read_cons_other hb]
        simp [Memory.read, hb.symm]
      · simp [Memory.read, ih]

theorem mem_cons_cases {m : Memory} {a : Nat} {v : Byte} {c : Host.Cell}
    (h : c ∈ Memory.cons a v m) : (c = (a, v) ∧ v ≠ Memory.unlisted) ∨ c ∈ m := by
  unfold Memory.cons at h
  split at h
  · exact .inr h
  · rcases List.mem_cons.mp h with h | h
    · exact .inl ⟨h, ‹_›⟩
    · exact .inr h

theorem cons_wf {m : Memory} {a : Nat} {v : Byte} (h : Memory.wf m) (ha : a < Config.addressSpace)
    (hlt : ∀ c ∈ m, a < c.1) : Memory.wf (Memory.cons a v m) := by
  unfold Memory.cons
  split
  · exact h
  · refine ⟨List.pairwise_cons.mpr ⟨hlt, h.1⟩, fun c hc => ?_⟩
    rcases List.mem_cons.mp hc with rfl | hc
    · exact ⟨‹_›, ha⟩
    · exact h.2 c hc

theorem mem_write_cases {m : Memory} {a : Nat} {v : Byte} {c : Host.Cell}
    (h : c ∈ Memory.write m a v) : (c = (a, v) ∧ v ≠ Memory.unlisted) ∨ c ∈ m := by
  induction m with
  | nil => exact mem_cons_cases h
  | cons x m ih =>
    obtain ⟨k, y⟩ := x
    unfold Memory.write at h
    split at h
    · exact mem_cons_cases h
    · split at h
      · rcases mem_cons_cases h with h | h
        · exact .inl h
        · exact .inr (List.mem_cons_of_mem _ h)
      · rcases List.mem_cons.mp h with rfl | h
        · exact .inr (by simp)
        · rcases ih h with h | h
          · exact .inl h
          · exact .inr (List.mem_cons_of_mem _ h)

/-- A write keeps the canonical form. -/
theorem write_wf {m : Memory} (h : Memory.wf m) {a : Nat} (ha : a < Config.addressSpace) (v : Byte) :
    Memory.wf (Memory.write m a v) := by
  induction m with
  | nil => exact cons_wf h ha (by simp)
  | cons c m ih =>
    obtain ⟨k, x⟩ := c
    have hlt := wf_head_lt h
    unfold Memory.write
    split
    · refine cons_wf h ha fun c hc => ?_
      rcases List.mem_cons.mp hc with rfl | hc
      · assumption
      · exact lt_trans ‹a < k› (hlt c hc)
    · split
      · subst a
        exact cons_wf (wf_tail h) ha hlt
      · have hw := ih (wf_tail h)
        refine ⟨List.pairwise_cons.mpr ⟨fun c hc => ?_, hw.1⟩, fun c hc => ?_⟩
        · rcases mem_write_cases hc with ⟨rfl, _⟩ | hc
          · show k < a
            omega
          · exact hlt c hc
        · rcases List.mem_cons.mp hc with rfl | hc
          · exact h.2 _ (by simp)
          · exact hw.2 c hc

theorem storeByte_wf {m : Memory} (h : Memory.wf m) (a : Nat) (v : Byte) :
    Memory.wf (Memory.storeByte m a v) := by
  unfold Memory.storeByte
  split
  · exact write_wf h ‹_› v
  · exact h

/-- Every memory operation keeps the canonical form. -/
theorem store_wf {m : Memory} (h : Memory.wf m) (a : Nat) (bs : List Byte) :
    Memory.wf (Memory.store m a bs) := by
  induction bs generalizing m a with
  | nil => exact h
  | cons b bs ih => exact ih (storeByte_wf h a b) (a + 1)

@[simp] theorem memRead_length (m : Memory) (a n : Nat) : (memRead m a n).length = n := by
  simp [memRead]

@[simp] theorem memRead_zero (m : Memory) (a : Nat) : memRead m a 0 = [] := rfl

theorem memRead_getElem (m : Memory) (a n i : Nat) (h : i < (memRead m a n).length) :
    (memRead m a n)[i] = Memory.read m (a + i) := by
  simp [memRead]

theorem memRead_append (m : Memory) (a n k : Nat) :
    memRead m a (n + k) = memRead m a n ++ memRead m (a + n) k := by
  simp [memRead, List.range_add, Nat.add_assoc]

/-- A word read and written out again is the bytes it was read from (R121, R122). -/
theorem toBE_loadWord (m : Memory) (ws ea : Nat) :
    toBE ws (loadWord m ws ea) = memRead m ea ws := by
  have := toBE_be (memRead m ea ws)
  rwa [memRead_length] at this

theorem read_storeByte_same {m : Memory} (h : Memory.wf m) {a : Nat} (ha : a < 2 ^ 64) (v : Byte) :
    Memory.read (Memory.storeByte m a v) a = v := by
  rw [Memory.storeByte, if_pos ha, read_write_same h]

theorem read_storeByte_other {m : Memory} {a b : Nat} (h : b ≠ a) (v : Byte) :
    Memory.read (Memory.storeByte m a v) b = Memory.read m b := by
  unfold Memory.storeByte
  split
  · exact read_write_other h v
  · rfl

/-- A store leaves every byte outside the stored ones alone. -/
theorem read_store_other {m : Memory} {a b : Nat} (bs : List Byte)
    (h : b < a ∨ a + bs.length ≤ b) :
    Memory.read (Memory.store m a bs) b = Memory.read m b := by
  induction bs generalizing m a with
  | nil => rfl
  | cons x bs ih =>
    simp only [List.length_cons] at h
    rw [Memory.store, ih (by omega), read_storeByte_other (by omega)]

theorem holeMisses_iff (h : Hole) (a n : Nat) (hn : 0 < n) :
    holeMisses h a n = true ↔ ∀ x, a ≤ x → x < a + n → holeHas h x = false := by
  simp only [holeMisses, holeHas, Bool.or_eq_true, beq_iff_eq, decide_eq_true_eq,
    Bool.and_eq_false_iff, decide_eq_false_iff_not]
  constructor
  · intro hh x h1 h2
    omega
  · intro hh
    by_contra hc
    simp only [not_or] at hc
    have := hh (max a h.base) (by omega) (by omega)
    omega

/-- The range check of the machine is the spec's check of every address (R61, R235). -/
theorem readable_iff (holes : List Hole) (a n : Nat) :
    readable holes a n = true ↔ Readable holes a n := by
  unfold readable Readable memValid
  rcases Nat.eq_zero_or_pos n with rfl | hn
  · simp
  · have h0 : n ≠ 0 := by omega
    simp only [Bool.or_eq_true, beq_iff_eq, h0, false_or, Bool.and_eq_true, decide_eq_true_eq,
      List.all_eq_true, Bool.not_eq_true', Config.addressSpace]
    refine and_congr_right fun _ => ⟨fun h x h1 h2 k hk => ?_, fun h k hk => ?_⟩
    · exact (holeMisses_iff k a n hn).mp (h k hk) x h1 h2
    · exact (holeMisses_iff k a n hn).mpr fun x h1 h2 => h x h1 h2 k hk

theorem readable_eq_false_iff (holes : List Hole) (a n : Nat) :
    readable holes a n = false ↔ ¬Readable holes a n := by
  rw [← readable_iff, Bool.not_eq_true]

end Sys2Proof.Machine
end

