-- ==== Sys2Proof/Laws/State.lean ====
section
/-!
SUPPORT. One lemma per field per update of the state, each true by unfolding once.
-/
namespace Sys2Proof.Machine

variable (s : State)

@[simp] theorem answer_e256 (r : Response) : (s.answer r).e256 = s.e256 := rfl
@[simp] theorem answer_e512 (r : Response) : (s.answer r).e512 = s.e512 := rfl
@[simp] theorem answer_tup (r : Response) : (s.answer r).tup = s.tup := rfl
@[simp] theorem answer_xlog (r : Response) : (s.answer r).xlog = s.xlog := rfl
@[simp] theorem answer_mem (r : Response) : (s.answer r).mem = s.mem := rfl
@[simp] theorem answer_pending (r : Response) : (s.answer r).pending = s.pending := rfl
@[simp] theorem answer_params (r : Response) : (s.answer r).params = s.params := rfl
@[simp] theorem answer_responses (r : Response) :
    (s.answer r).responses = s.responses ++ [r] := rfl
@[simp] theorem answer_life (r : Response) (u : UnitId) : (s.answer r).life u = s.life u := by
  cases u <;> rfl
@[simp] theorem respondOk_eq (p : List Byte) : s.respondOk p = s.answer (.ok p) := rfl

@[simp] theorem emit_e256 (e : XofEvent) : (s.emit e).e256 = s.e256 := rfl
@[simp] theorem emit_e512 (e : XofEvent) : (s.emit e).e512 = s.e512 := rfl
@[simp] theorem emit_tup (e : XofEvent) : (s.emit e).tup = s.tup := rfl
@[simp] theorem emit_xlog (e : XofEvent) : (s.emit e).xlog = s.xlog ++ [e] := rfl
@[simp] theorem emit_mem (e : XofEvent) : (s.emit e).mem = s.mem := rfl
@[simp] theorem emit_pending (e : XofEvent) : (s.emit e).pending = s.pending := rfl
@[simp] theorem emit_params (e : XofEvent) : (s.emit e).params = s.params := rfl
@[simp] theorem emit_responses (e : XofEvent) : (s.emit e).responses = s.responses := rfl
@[simp] theorem emit_life (e : XofEvent) (u : UnitId) : (s.emit e).life u = s.life u := by
  cases u <;> rfl

@[simp] theorem setLife_e256 (l : Life) :
    (s.setLife .e256 l).e256 = { s.e256 with life := l } := rfl
@[simp] theorem setLife_e512 (l : Life) :
    (s.setLife .e512 l).e512 = { s.e512 with life := l } := rfl
@[simp] theorem setLife_tup (l : Life) : (s.setLife .tup l).tup = { life := l } := rfl
@[simp] theorem setLife_e256_e512 (l : Life) : (s.setLife .e256 l).e512 = s.e512 := rfl
@[simp] theorem setLife_e256_tup (l : Life) : (s.setLife .e256 l).tup = s.tup := rfl
@[simp] theorem setLife_e512_e256 (l : Life) : (s.setLife .e512 l).e256 = s.e256 := rfl
@[simp] theorem setLife_e512_tup (l : Life) : (s.setLife .e512 l).tup = s.tup := rfl
@[simp] theorem setLife_tup_e256 (l : Life) : (s.setLife .tup l).e256 = s.e256 := rfl
@[simp] theorem setLife_tup_e512 (l : Life) : (s.setLife .tup l).e512 = s.e512 := rfl
@[simp] theorem setLife_xlog (u : UnitId) (l : Life) : (s.setLife u l).xlog = s.xlog := by
  cases u <;> rfl
@[simp] theorem setLife_mem (u : UnitId) (l : Life) : (s.setLife u l).mem = s.mem := by
  cases u <;> rfl
@[simp] theorem setLife_pending (u : UnitId) (l : Life) :
    (s.setLife u l).pending = s.pending := by
  cases u <;> rfl
@[simp] theorem setLife_params (u : UnitId) (l : Life) : (s.setLife u l).params = s.params := by
  cases u <;> rfl
@[simp] theorem setLife_responses (u : UnitId) (l : Life) :
    (s.setLife u l).responses = s.responses := by
  cases u <;> rfl
@[simp] theorem setLife_life (u : UnitId) (l : Life) : (s.setLife u l).life u = l := by
  cases u <;> rfl
theorem setLife_life_other {u v : UnitId} (h : v ≠ u) (l : Life) :
    (s.setLife u l).life v = s.life v := by
  cases u <;> cases v <;> first | rfl | exact absurd rfl h

@[simp] theorem resetUnit_e256 :
    (s.resetUnit .e256).e256 = Engine.initial 64 s.params.iv256 := rfl
@[simp] theorem resetUnit_e512 :
    (s.resetUnit .e512).e512 = Engine.initial 128 s.params.iv512 := rfl
@[simp] theorem resetUnit_tup : (s.resetUnit .tup).tup = { life := .fresh } := rfl
@[simp] theorem resetUnit_e256_e512 : (s.resetUnit .e256).e512 = s.e512 := rfl
@[simp] theorem resetUnit_e256_tup : (s.resetUnit .e256).tup = s.tup := rfl
@[simp] theorem resetUnit_e512_e256 : (s.resetUnit .e512).e256 = s.e256 := rfl
@[simp] theorem resetUnit_e512_tup : (s.resetUnit .e512).tup = s.tup := rfl
@[simp] theorem resetUnit_tup_e256 : (s.resetUnit .tup).e256 = s.e256 := rfl
@[simp] theorem resetUnit_tup_e512 : (s.resetUnit .tup).e512 = s.e512 := rfl
@[simp] theorem resetUnit_xlog (u : UnitId) : (s.resetUnit u).xlog = s.xlog := by cases u <;> rfl
@[simp] theorem resetUnit_mem (u : UnitId) : (s.resetUnit u).mem = s.mem := by cases u <;> rfl
@[simp] theorem resetUnit_pending (u : UnitId) : (s.resetUnit u).pending = s.pending := by
  cases u <;> rfl
@[simp] theorem resetUnit_params (u : UnitId) : (s.resetUnit u).params = s.params := by
  cases u <;> rfl
@[simp] theorem resetUnit_responses (u : UnitId) : (s.resetUnit u).responses = s.responses := by
  cases u <;> rfl

@[simp] theorem take_e256 : s.take.e256 = s.e256 := rfl
@[simp] theorem take_e512 : s.take.e512 = s.e512 := rfl
@[simp] theorem take_tup : s.take.tup = s.tup := rfl
@[simp] theorem take_xlog : s.take.xlog = s.xlog := rfl
@[simp] theorem take_mem : s.take.mem = s.mem := rfl
@[simp] theorem take_params : s.take.params = s.params := rfl
@[simp] theorem take_responses : s.take.responses = s.responses := rfl
@[simp] theorem take_pending : s.take.pending = s.pending.tail := rfl
@[simp] theorem take_life (u : UnitId) : s.take.life u = s.life u := by cases u <;> rfl

end Sys2Proof.Machine
end

