-- ==== Sys2Proof/Laws/Ops.lean ====
section
/-!
SUPPORT. What each shared operation can do, said once (spec/60_exceptions.md R230, R238;
spec/30_encoding.md R96).
-/
namespace Sys2Proof.Machine

variable (s : State)

theorem markFaulted_some (u : UnitId) (f : FaultCode) :
    s.markFaulted (some u) f = if f.marks then s.setLife u .faulted else s := by
  cases f <;> rfl

@[simp] theorem markFaulted_none (f : FaultCode) : s.markFaulted none f = s := rfl

@[simp] theorem raise_none (f : FaultCode) : s.raise none f = s.answer (.fault f) := rfl

@[simp] theorem raise_illegalCmd (u : Option UnitId) :
    s.raise u .illegalCmd = s.answer (.fault .illegalCmd) := by cases u <;> rfl
@[simp] theorem raise_unitFaulted (u : Option UnitId) :
    s.raise u .unitFaulted = s.answer (.fault .unitFaulted) := by cases u <;> rfl
@[simp] theorem raise_misuse (u : UnitId) :
    s.raise (some u) .misuse = (s.setLife u .faulted).answer (.fault .misuse) := rfl
@[simp] theorem raise_addrRange (u : UnitId) :
    s.raise (some u) .addrRange = (s.setLife u .faulted).answer (.fault .addrRange) := rfl
@[simp] theorem raise_lenOverflow (u : UnitId) :
    s.raise (some u) .lenOverflow = (s.setLife u .faulted).answer (.fault .lenOverflow) := rfl

@[simp] theorem raise_responses (u : Option UnitId) (f : FaultCode) :
    (s.raise u f).responses = s.responses ++ [.fault f] := by
  cases u <;> cases f <;> simp [State.raise, State.markFaulted]
@[simp] theorem raise_xlog (u : Option UnitId) (f : FaultCode) : (s.raise u f).xlog = s.xlog := by
  cases u <;> cases f <;> simp [State.raise, State.markFaulted]
@[simp] theorem raise_mem (u : Option UnitId) (f : FaultCode) : (s.raise u f).mem = s.mem := by
  cases u <;> cases f <;> simp [State.raise, State.markFaulted]
@[simp] theorem raise_pending (u : Option UnitId) (f : FaultCode) :
    (s.raise u f).pending = s.pending := by
  cases u <;> cases f <;> simp [State.raise, State.markFaulted]
@[simp] theorem raise_params (u : Option UnitId) (f : FaultCode) :
    (s.raise u f).params = s.params := by
  cases u <;> cases f <;> simp [State.raise, State.markFaulted]

@[simp] theorem raise_e256 (u : Option UnitId) (f : FaultCode) :
    { (s.raise u f).e256 with life := s.e256.life } = s.e256 := by
  cases u with
  | none => rfl
  | some u => cases u <;> cases f <;> rfl
@[simp] theorem raise_e512 (u : Option UnitId) (f : FaultCode) :
    { (s.raise u f).e512 with life := s.e512.life } = s.e512 := by
  cases u with
  | none => rfl
  | some u => cases u <;> cases f <;> rfl

/-- What a fault does to every unit's `LIFE` (R238). -/
theorem raise_life (u : Option UnitId) (f : FaultCode) (v : UnitId) :
    (s.raise u f).life v = if u = some v ∧ f.marks = true then .faulted else s.life v := by
  cases u with
  | none => simp
  | some u => cases u <;> cases v <;> cases f <;> simp [FaultCode.marks, State.life]

/-- Everything the lifecycle check can do: raise the fault of R100's table, or go on. -/
theorem withLife_cases (u : UnitId) (r : LifeRow) (go : Life → State) :
    (∃ f, lifecycle r (s.life u) = .error f ∧ withLife s u r go = s.raise (some u) f) ∨
      ∃ l, lifecycle r (s.life u) = .ok l ∧ withLife s u r go = go l := by
  unfold withLife
  cases lifecycle r (s.life u) with
  | error f => exact .inl ⟨f, rfl, rfl⟩
  | ok l => exact .inr ⟨l, rfl, rfl⟩

theorem withLife_ok {u : UnitId} {r : LifeRow} {l : Life} (go : Life → State)
    (h : lifecycle r (s.life u) = .ok l) : withLife s u r go = go l := by
  simp [withLife, h]

theorem withLife_error {u : UnitId} {r : LifeRow} {f : FaultCode} (go : Life → State)
    (h : lifecycle r (s.life u) = .error f) : withLife s u r go = s.raise (some u) f := by
  simp [withLife, h]

/-- Everything an operand check can do: raise its fault, or go on. -/
theorem require_cases (u : Option UnitId) (f : FaultCode) (check : Bool) (go : State) :
    (check = false ∧ require s u f check go = s.raise u f) ∨
      (check = true ∧ require s u f check go = go) := by
  cases check
  · exact .inl ⟨rfl, rfl⟩
  · exact .inr ⟨rfl, rfl⟩

@[simp] theorem require_true (u : Option UnitId) (f : FaultCode) (go : State) :
    require s u f true go = go := rfl
@[simp] theorem require_false (u : Option UnitId) (f : FaultCode) (go : State) :
    require s u f false go = s.raise u f := rfl

theorem countFits_iff {c : Nat} (maxCount : Nat) (count : BitVec c) (l : Nat) :
    countFits maxCount count l = true ↔ count.toNat + l ≤ maxCount := by
  simp [countFits]

/-- Where R100's table lets an INGEST or NEXTDATA go on. -/
theorem lifecycle_ingest_ok {l m : Life} (h : lifecycle .ingest l = .ok m) :
    (l = .fresh ∨ l = .accepting) ∧ m = .accepting := by
  cases l <;> simp_all [lifecycle]

/-- Where R100's table lets a FINALIZE go on. -/
theorem lifecycle_finalize_ok {l m : Life} (h : lifecycle .finalize l = .ok m) :
    (l = .fresh ∨ l = .accepting) ∧ m = .finalized := by
  cases l <;> simp_all [lifecycle]

end Sys2Proof.Machine
end

