-- ==== Sys2Proof/Laws/Exec.lean ====
section
/-!
SUPPORT. What a command can do, said once: it runs, with its own effect (`Ran`), or it raises a fault on
the unit it addresses (`exec_cases`).
-/
namespace Sys2Proof.Machine

/-- `LIFE` is Fresh or Accepting. -/
def Life.isOpen (l : Life) : Prop := l = .fresh ∨ l = .accepting

/-- The command ran: the conditions under which each command has its effect, and the state it leaves. -/
inductive Ran : Instr → State → State → Prop
  | reset256 (s : State) : Ran .reset256 s ((s.resetUnit .e256).answer (.ok []))
  | reset512 (s : State) : Ran .reset512 s ((s.resetUnit .e512).answer (.ok []))
  | resetTup (s : State) :
      Ran .resetTup s (((s.emit .xReset).resetUnit .tup).answer (.ok []))
  | ingest256 (s : State) (a l : Nat) (hlife : s.e256.life.isOpen)
      (hread : readable s.params.holes a l = true)
      (hcount : countFits sha256.maxCount s.e256.count l = true) :
      Ran (.ingest256 a l) s
        ({ s with
          e256 := { ingest sha256 s.e256 (memRead s.mem a l) with life := .accepting } }.answer
            (.ok []))
  | ingest512 (s : State) (a l : Nat) (hlife : s.e512.life.isOpen)
      (hread : readable s.params.holes a l = true)
      (hcount : countFits sha512t.maxCount s.e512.count l = true) :
      Ran (.ingest512 a l) s
        ({ s with
          e512 := { ingest sha512t s.e512 (memRead s.mem a l) with life := .accepting } }.answer
            (.ok []))
  | finalize256 (s : State) (hlife : s.e256.life.isOpen) :
      Ran .finalize256 s
        ({ s with e256 := { finish sha256 s.e256 with life := .finalized } }.answer (.ok []))
  | finalize512 (s : State) (hlife : s.e512.life.isOpen) :
      Ran .finalize512 s
        ({ s with e512 := { finish sha512t s.e512 with life := .finalized } }.answer (.ok []))
  | finalizeTup (s : State) (hlife : s.tup.life.isOpen) :
      Ran .finalizeTup s (((emitClosing s).setLife .tup .finalized).answer (.ok []))
  | digest256 (s : State) (hlife : s.e256.life = .finalized) :
      Ran .digest256 s (s.answer (.ok (digest dlen256 s.e256.h)))
  | digest512 (s : State) (hlife : s.e512.life = .finalized) :
      Ran .digest512 s (s.answer (.ok (digest s.params.dlen512.val s.e512.h)))
  | digestTup (s : State) (hlife : s.tup.life ≠ .faulted) :
      Ran .digestTup s
        ((s.emit .xRead).answer (.ok (Config.xofDigest s.params.tup s.xlog)))
  | nextdata (s : State) (a l : Nat) (hlife : s.tup.life.isOpen)
      (hread : readable s.params.holes a l = true) :
      Ran (.nextdata a l) s
        (((emitElement s (memRead s.mem a l)).setLife .tup .accepting).answer (.ok []))
  | lenc (s : State) (n : Nat) : Ran (.lenc n) s (s.answer (.ok (leftEncode n)))
  | renc (s : State) (n : Nat) : Ran (.renc n) s (s.answer (.ok (rightEncode n)))
  | loadw32 (s : State) (a i : Nat)
      (hread : readable s.params.holes (loadAddress 4 a i) 4 = true) :
      Ran (.loadw32 a i) s (s.answer (.ok (toBE 4 (loadWord s.mem 4 (loadAddress 4 a i)))))
  | loadw64 (s : State) (a i : Nat)
      (hread : readable s.params.holes (loadAddress 8 a i) 8 = true) :
      Ran (.loadw64 a i) s (s.answer (.ok (toBE 8 (loadWord s.mem 8 (loadAddress 8 a i)))))

/-- Which faults a command can raise: UNIT_FAULTED on a Faulted unit and on no other, and never
ILLEGAL_CMD (R232, R233). -/
def Raises (i : Instr) (s : State) (f : FaultCode) : Prop :=
  f ≠ .illegalCmd ∧ ∀ u, addressedUnit i = some u → (f = .unitFaulted ↔ s.life u = .faulted)

theorem lifecycle_error {r : LifeRow} {l : Life} {f : FaultCode} (h : lifecycle r l = .error f) :
    f ≠ .illegalCmd ∧ (f = .unitFaulted ↔ l = .faulted) := by
  cases r <;> cases l <;> simp_all [lifecycle] <;> subst h <;> simp

theorem raises_lifecycle {i : Instr} {s : State} {f : FaultCode} {u : UnitId} {r : LifeRow}
    (hu : addressedUnit i = some u) (h : lifecycle r (s.life u) = .error f) : Raises i s f := by
  refine ⟨(lifecycle_error h).1, fun v hv => ?_⟩
  obtain rfl : u = v := Option.some.inj (hu.symm.trans hv)
  exact (lifecycle_error h).2

theorem Life.isOpen_ne_faulted {l : Life} (h : l.isOpen) : l ≠ .faulted := by
  rcases h with rfl | rfl <;> decide

theorem raises_check {i : Instr} {s : State} {f : FaultCode} {u : UnitId}
    (hu : addressedUnit i = some u) (h : (s.life u).isOpen)
    (hf : f = .addrRange ∨ f = .lenOverflow) : Raises i s f := by
  refine ⟨by rcases hf with rfl | rfl <;> decide, fun v hv => ?_⟩
  obtain rfl : u = v := Option.some.inj (hu.symm.trans hv)
  have := Life.isOpen_ne_faulted h
  rcases hf with rfl | rfl <;> simp [this]

theorem raises_none {i : Instr} {s : State} (hu : addressedUnit i = none) :
    Raises i s .addrRange :=
  ⟨by decide, fun v hv => by rw [hu] at hv; cases hv⟩

/-- A command runs, or it raises one fault on the unit it addresses. -/
theorem exec_cases {i : Instr} {s t : State} (h : exec i s = .next t) :
    Ran i s t ∨ ∃ f, Raises i s f ∧ t = s.raise (addressedUnit i) f := by
  cases i with
  | reset256 => cases h; exact .inl (.reset256 s)
  | reset512 => cases h; exact .inl (.reset512 s)
  | resetTup => cases h; exact .inl (.resetTup s)
  | ingest256 a l =>
    cases h
    rcases withLife_cases s .e256 .ingest _ with ⟨f, hf, h⟩ | ⟨m, hm, h⟩ <;> rw [h]
    · exact .inr ⟨f, raises_lifecycle rfl hf, rfl⟩
    · obtain ⟨ho, rfl⟩ := lifecycle_ingest_ok hm
      rcases require_cases s (some .e256) .addrRange _ _ with ⟨-, h⟩ | ⟨hr, h⟩ <;> rw [h]
      · exact .inr ⟨_, raises_check rfl ho (by decide), rfl⟩
      rcases require_cases s (some .e256) .lenOverflow _ _ with ⟨-, h⟩ | ⟨hc, h⟩ <;> rw [h]
      · exact .inr ⟨_, raises_check rfl ho (by decide), rfl⟩
      · exact .inl (.ingest256 s a l ho hr hc)
  | ingest512 a l =>
    cases h
    rcases withLife_cases s .e512 .ingest _ with ⟨f, hf, h⟩ | ⟨m, hm, h⟩ <;> rw [h]
    · exact .inr ⟨f, raises_lifecycle rfl hf, rfl⟩
    · obtain ⟨ho, rfl⟩ := lifecycle_ingest_ok hm
      rcases require_cases s (some .e512) .addrRange _ _ with ⟨-, h⟩ | ⟨hr, h⟩ <;> rw [h]
      · exact .inr ⟨_, raises_check rfl ho (by decide), rfl⟩
      rcases require_cases s (some .e512) .lenOverflow _ _ with ⟨-, h⟩ | ⟨hc, h⟩ <;> rw [h]
      · exact .inr ⟨_, raises_check rfl ho (by decide), rfl⟩
      · exact .inl (.ingest512 s a l ho hr hc)
  | finalize256 =>
    cases h
    rcases withLife_cases s .e256 .finalize _ with ⟨f, hf, h⟩ | ⟨m, hm, h⟩ <;> rw [h]
    · exact .inr ⟨f, raises_lifecycle rfl hf, rfl⟩
    · obtain ⟨ho, rfl⟩ := lifecycle_finalize_ok hm
      exact .inl (.finalize256 s ho)
  | finalize512 =>
    cases h
    rcases withLife_cases s .e512 .finalize _ with ⟨f, hf, h⟩ | ⟨m, hm, h⟩ <;> rw [h]
    · exact .inr ⟨f, raises_lifecycle rfl hf, rfl⟩
    · obtain ⟨ho, rfl⟩ := lifecycle_finalize_ok hm
      exact .inl (.finalize512 s ho)
  | finalizeTup =>
    cases h
    rcases withLife_cases s .tup .finalize _ with ⟨f, hf, h⟩ | ⟨m, hm, h⟩ <;> rw [h]
    · exact .inr ⟨f, raises_lifecycle rfl hf, rfl⟩
    · obtain ⟨ho, rfl⟩ := lifecycle_finalize_ok hm
      exact .inl (.finalizeTup s ho)
  | digest256 =>
    cases h
    rcases withLife_cases s .e256 .digestHash _ with ⟨f, hf, h⟩ | ⟨m, hm, h⟩ <;> rw [h]
    · exact .inr ⟨f, raises_lifecycle rfl hf, rfl⟩
    · refine .inl (.digest256 s ?_)
      revert hm
      show lifecycle .digestHash s.e256.life = .ok m → _
      cases s.e256.life <;> simp [lifecycle]
  | digest512 =>
    cases h
    rcases withLife_cases s .e512 .digestHash _ with ⟨f, hf, h⟩ | ⟨m, hm, h⟩ <;> rw [h]
    · exact .inr ⟨f, raises_lifecycle rfl hf, rfl⟩
    · refine .inl (.digest512 s ?_)
      revert hm
      show lifecycle .digestHash s.e512.life = .ok m → _
      cases s.e512.life <;> simp [lifecycle]
  | digestTup =>
    cases h
    rcases withLife_cases s .tup .digestTup _ with ⟨f, hf, h⟩ | ⟨m, hm, h⟩ <;> rw [h]
    · exact .inr ⟨f, raises_lifecycle rfl hf, rfl⟩
    · refine .inl (.digestTup s ?_)
      revert hm
      show lifecycle .digestTup s.tup.life = .ok m → _
      cases s.tup.life <;> simp [lifecycle]
  | nextdata a l =>
    cases h
    rcases withLife_cases s .tup .ingest _ with ⟨f, hf, h⟩ | ⟨m, hm, h⟩ <;> rw [h]
    · exact .inr ⟨f, raises_lifecycle rfl hf, rfl⟩
    · obtain ⟨ho, rfl⟩ := lifecycle_ingest_ok hm
      rcases require_cases s (some .tup) .addrRange _ _ with ⟨-, h⟩ | ⟨hr, h⟩ <;> rw [h]
      · exact .inr ⟨_, raises_check rfl ho (by decide), rfl⟩
      · exact .inl (.nextdata s a l ho hr)
  | lenc n => cases h; exact .inl (.lenc s n)
  | renc n => cases h; exact .inl (.renc s n)
  | loadw32 a i =>
    cases h
    rcases require_cases s none .addrRange _ _ with ⟨-, h⟩ | ⟨hr, h⟩ <;> rw [h]
    · exact .inr ⟨_, raises_none rfl, rfl⟩
    · exact .inl (.loadw32 s a i hr)
  | loadw64 a i =>
    cases h
    rcases require_cases s none .addrRange _ _ with ⟨-, h⟩ | ⟨hr, h⟩ <;> rw [h]
    · exact .inr ⟨_, raises_none rfl, rfl⟩
    · exact .inl (.loadw64 s a i hr)

/-- A command that ran has all its effects (R238). -/
theorem ran_completed {i : Instr} {s t : State} (h : Ran i s t) : t = completed i s := by
  cases h <;> simp [completed, State.answer, State.emit, State.resetUnit, State.setLife, emitClosing,
    emitElement, loadAddress]

/-- A command that ran answers `OK`. -/
theorem ran_ok {i : Instr} {s t : State} (h : Ran i s t) :
    ∃ p, t.responses = s.responses ++ [.ok p] := by
  rw [ran_completed h]
  cases i <;> exact ⟨_, rfl⟩

/-- A command that ran leaves the block's inputs alone. -/
theorem ran_inputs {i : Instr} {s t : State} (h : Ran i s t) :
    t.mem = s.mem ∧ t.params = s.params ∧ t.pending = s.pending := by
  rw [ran_completed h]
  cases i <;> exact ⟨rfl, rfl, rfl⟩

/-- Where a command that ran moves the `LIFE` of each unit. -/
theorem ran_life {i : Instr} {s t : State} (h : Ran i s t) (u : UnitId) :
    t.life u = s.life u ∨ (t.life u = .fresh ∧ i = resetCommand u) ∨
      (t.life u = .accepting ∧ (s.life u).isOpen) ∨
      (t.life u = .finalized ∧ (s.life u).isOpen) := by
  cases h <;> cases u <;>
    simp_all [State.life, emitClosing, emitElement, resetCommand, Engine.initial]

/-- Everything a step can do. -/
theorem step_cases {s t : State} (h : step s = .next t) :
    (s.pending = [] ∧ t = s) ∨
    (∃ d rest i, s.pending = .command d :: rest ∧ decode d = .ok i ∧ exec i s.take = .next t) ∨
    (∃ d rest e, s.pending = .command d :: rest ∧ decode d = .error e ∧
      t = rejectDescriptor s.take) ∨
    (∃ a bytes rest, s.pending = .store a bytes :: rest ∧ t = hostStore s.take a bytes) ∨
    (∃ rest, s.pending = .resetPin :: rest ∧ t = pulseResetPin s.take) := by
  unfold step at h
  split at h
  · exact .inl ⟨‹_›, (Host.Outcome.next.inj h).symm⟩
  · split at h
    · exact .inr (.inl ⟨_, _, _, ‹_›, ‹_›, h⟩)
    · exact .inr (.inr (.inl ⟨_, _, _, ‹_›, ‹_›, (Host.Outcome.next.inj h).symm⟩))
  · exact .inr (.inr (.inr (.inl ⟨_, _, _, ‹_›, (Host.Outcome.next.inj h).symm⟩)))
  · exact .inr (.inr (.inr (.inr ⟨_, ‹_›, (Host.Outcome.next.inj h).symm⟩)))

/-- A command sequence is run piece by piece. -/
theorem execAll_append {a : List Instr} {s t : State} (h : execAll a s = .next t)
    (b : List Instr) : execAll (a ++ b) s = execAll b t := by
  induction a generalizing s with
  | nil => cases h; rfl
  | cons i a ih =>
    simp only [execAll, List.cons_append] at h ⊢
    split at h
    · exact ih h
    · cases h
    · cases h

end Sys2Proof.Machine
end

