-- ==== Sys2Proof/Laws/PerInstr.lean ====
section
/-!
SUPPORT. Statements about every command, lemma by lemma: the fields of its command word
(spec/30_encoding.md R81, R83, R85) and the fields of its descriptor (R80, R82, R91).
-/
namespace Sys2Proof

/-- The command word of a command: `rsv` is zero, `unit` names a unit that exists, `op` is one of the eight
operations, and the decoder's own fields give the row back (R81, R83, R86). -/
def Laws.CommandWord.Statement (i : Instr) : Prop :=
  cwRsv (commandWord i) = 0 ∧ cwUnit (commandWord i) ≠ 3 ∧ 1 ≤ (cwOp (commandWord i)).toNat ∧
    (cwOp (commandWord i)).toNat ≤ 8 ∧
    decodeRow (cwOp (commandWord i)).toNat (cwUnit (commandWord i)).toNat (operandA i) (operandL i) =
      .ok i

/-- The descriptor of a well-formed command carries its operands and its command word, each in its own
field (R80). -/
def Laws.DescriptorFields.Statement (i : Instr) : Prop :=
  i.wellFormed = true →
    (encode i).cw = commandWord i ∧ (encode i).a = operandA i ∧ (encode i).l = operandL i

/-- A command's operands fit their fields. -/
theorem operands_fit {i : Instr} (h : i.wellFormed = true) :
    operandA i < 2 ^ 64 ∧ operandL i < 2 ^ 64 := by
  cases i <;> simp_all [Instr.wellFormed, Instr.fits, operandA, operandL]

/-- The fields of a descriptor built from operands that fit. -/
theorem encode_fields {i : Instr} (h : i.wellFormed = true) :
    (encode i).cw = commandWord i ∧ (encode i).a = operandA i ∧ (encode i).l = operandL i :=
  ⟨descriptor_cw _ _ _, descriptor_a (operands_fit h).1 _ _, descriptor_l (operands_fit h).2 _ _⟩

theorem Laws.CommandWord.reset256 :
    Laws.CommandWord.Statement .reset256 := by
  simp [Laws.CommandWord.Statement, commandWord, cwRsv, cwUnit, cwOp, decodeRow]
theorem Laws.CommandWord.reset512 :
    Laws.CommandWord.Statement .reset512 := by
  simp [Laws.CommandWord.Statement, commandWord, cwRsv, cwUnit, cwOp, decodeRow]
theorem Laws.CommandWord.resetTup :
    Laws.CommandWord.Statement .resetTup := by
  simp [Laws.CommandWord.Statement, commandWord, cwRsv, cwUnit, cwOp, decodeRow]
theorem Laws.CommandWord.ingest256 (a l : Nat) :
    Laws.CommandWord.Statement (.ingest256 a l) := by
  simp [Laws.CommandWord.Statement, commandWord, cwRsv, cwUnit, cwOp, decodeRow, operandA, operandL]
theorem Laws.CommandWord.ingest512 (a l : Nat) :
    Laws.CommandWord.Statement (.ingest512 a l) := by
  simp [Laws.CommandWord.Statement, commandWord, cwRsv, cwUnit, cwOp, decodeRow, operandA, operandL]
theorem Laws.CommandWord.finalize256 :
    Laws.CommandWord.Statement .finalize256 := by
  simp [Laws.CommandWord.Statement, commandWord, cwRsv, cwUnit, cwOp, decodeRow]
theorem Laws.CommandWord.finalize512 :
    Laws.CommandWord.Statement .finalize512 := by
  simp [Laws.CommandWord.Statement, commandWord, cwRsv, cwUnit, cwOp, decodeRow]
theorem Laws.CommandWord.finalizeTup :
    Laws.CommandWord.Statement .finalizeTup := by
  simp [Laws.CommandWord.Statement, commandWord, cwRsv, cwUnit, cwOp, decodeRow]
theorem Laws.CommandWord.digest256 :
    Laws.CommandWord.Statement .digest256 := by
  simp [Laws.CommandWord.Statement, commandWord, cwRsv, cwUnit, cwOp, decodeRow]
theorem Laws.CommandWord.digest512 :
    Laws.CommandWord.Statement .digest512 := by
  simp [Laws.CommandWord.Statement, commandWord, cwRsv, cwUnit, cwOp, decodeRow]
theorem Laws.CommandWord.digestTup :
    Laws.CommandWord.Statement .digestTup := by
  simp [Laws.CommandWord.Statement, commandWord, cwRsv, cwUnit, cwOp, decodeRow]
theorem Laws.CommandWord.nextdata (a l : Nat) :
    Laws.CommandWord.Statement (.nextdata a l) := by
  simp [Laws.CommandWord.Statement, commandWord, cwRsv, cwUnit, cwOp, decodeRow, operandA, operandL]
theorem Laws.CommandWord.lenc (n : Nat) :
    Laws.CommandWord.Statement (.lenc n) := by
  simp [Laws.CommandWord.Statement, commandWord, cwRsv, cwUnit, cwOp, decodeRow, operandL]
theorem Laws.CommandWord.renc (n : Nat) :
    Laws.CommandWord.Statement (.renc n) := by
  simp [Laws.CommandWord.Statement, commandWord, cwRsv, cwUnit, cwOp, decodeRow, operandL]
theorem Laws.CommandWord.loadw32 (a i : Nat) :
    Laws.CommandWord.Statement (.loadw32 a i) := by
  simp [Laws.CommandWord.Statement, commandWord, cwRsv, cwUnit, cwOp, decodeRow, operandA, operandL]
theorem Laws.CommandWord.loadw64 (a i : Nat) :
    Laws.CommandWord.Statement (.loadw64 a i) := by
  simp [Laws.CommandWord.Statement, commandWord, cwRsv, cwUnit, cwOp, decodeRow, operandA, operandL]

theorem Laws.DescriptorFields.reset256 :
    Laws.DescriptorFields.Statement .reset256 := encode_fields
theorem Laws.DescriptorFields.reset512 :
    Laws.DescriptorFields.Statement .reset512 := encode_fields
theorem Laws.DescriptorFields.resetTup :
    Laws.DescriptorFields.Statement .resetTup := encode_fields
theorem Laws.DescriptorFields.ingest256 (a l : Nat) :
    Laws.DescriptorFields.Statement (.ingest256 a l) := encode_fields
theorem Laws.DescriptorFields.ingest512 (a l : Nat) :
    Laws.DescriptorFields.Statement (.ingest512 a l) := encode_fields
theorem Laws.DescriptorFields.finalize256 :
    Laws.DescriptorFields.Statement .finalize256 := encode_fields
theorem Laws.DescriptorFields.finalize512 :
    Laws.DescriptorFields.Statement .finalize512 := encode_fields
theorem Laws.DescriptorFields.finalizeTup :
    Laws.DescriptorFields.Statement .finalizeTup := encode_fields
theorem Laws.DescriptorFields.digest256 :
    Laws.DescriptorFields.Statement .digest256 := encode_fields
theorem Laws.DescriptorFields.digest512 :
    Laws.DescriptorFields.Statement .digest512 := encode_fields
theorem Laws.DescriptorFields.digestTup :
    Laws.DescriptorFields.Statement .digestTup := encode_fields
theorem Laws.DescriptorFields.nextdata (a l : Nat) :
    Laws.DescriptorFields.Statement (.nextdata a l) := encode_fields
theorem Laws.DescriptorFields.lenc (n : Nat) :
    Laws.DescriptorFields.Statement (.lenc n) := encode_fields
theorem Laws.DescriptorFields.renc (n : Nat) :
    Laws.DescriptorFields.Statement (.renc n) := encode_fields
theorem Laws.DescriptorFields.loadw32 (a i : Nat) :
    Laws.DescriptorFields.Statement (.loadw32 a i) := encode_fields
theorem Laws.DescriptorFields.loadw64 (a i : Nat) :
    Laws.DescriptorFields.Statement (.loadw64 a i) := encode_fields

end Sys2Proof
end

