-- ==== Sys2Proof/Tests/Slice0.lean ====
section
/-!
SUPPORT. The model's own tests. Expected values are the spec's: the words of spec/30_encoding.md R80 to R86
and the vectors V1 to V153 and programs P1 to P7 of spec/95_test_vectors.md, named in each comment. The
witnesses at the end show that every obligation's hypotheses can be met, clause by clause.
-/
namespace Sys2Proof.Tests
open Sys2Proof.Machine

set_option maxRecDepth 100000
set_option Elab.async false

/-! ### Well-formedness: an ill-formed term for each check is refused -/

theorem test_wf_ingest256_a : (Instr.ingest256 (2 ^ 64) 0).wellFormed = false := by decide
theorem test_wf_ingest256_l : (Instr.ingest256 0 (2 ^ 64)).wellFormed = false := by decide
theorem test_wf_ingest512_a : (Instr.ingest512 (2 ^ 64) 0).wellFormed = false := by decide
theorem test_wf_ingest512_l : (Instr.ingest512 0 (2 ^ 64)).wellFormed = false := by decide
theorem test_wf_nextdata_a : (Instr.nextdata (2 ^ 64) 0).wellFormed = false := by decide
theorem test_wf_nextdata_l : (Instr.nextdata 0 (2 ^ 64)).wellFormed = false := by decide
theorem test_wf_lenc : (Instr.lenc (2 ^ 64)).wellFormed = false := by decide
theorem test_wf_renc : (Instr.renc (2 ^ 64)).wellFormed = false := by decide
theorem test_wf_loadw32_a : (Instr.loadw32 (2 ^ 64) 0).wellFormed = false := by decide
theorem test_wf_loadw32_i : (Instr.loadw32 0 (2 ^ 64)).wellFormed = false := by decide
theorem test_wf_loadw64_a : (Instr.loadw64 (2 ^ 64) 0).wellFormed = false := by decide
theorem test_wf_loadw64_i : (Instr.loadw64 0 (2 ^ 64)).wellFormed = false := by decide

/-! ### Decoding: one descriptor for every constructor, its command word written bit by bit from R81 and
R83 (22 bits of `rsv`, 2 of `unit`, 8 of `op`), its operand fields from R80 and R82 -/

theorem test_decode_reset256 :
    decode (3#64 ++ 0x1000#64 ++ 0b00000000000000000000000000000001#32) = .ok .reset256 := by decide

theorem test_decode_reset512 :
    decode (3#64 ++ 0x1000#64 ++ 0b00000000000000000000000100000001#32) = .ok .reset512 := by decide

theorem test_decode_resetTup :
    decode (3#64 ++ 0x1000#64 ++ 0b00000000000000000000001000000001#32) = .ok .resetTup := by decide

theorem test_decode_ingest256 :
    decode (3#64 ++ 0x1000#64 ++ 0b00000000000000000000000000000010#32) = .ok (.ingest256 0x1000 3) := by decide

theorem test_decode_ingest512 :
    decode (3#64 ++ 0x1000#64 ++ 0b00000000000000000000000100000010#32) = .ok (.ingest512 0x1000 3) := by decide

theorem test_decode_finalize256 :
    decode (3#64 ++ 0x1000#64 ++ 0b00000000000000000000000000000011#32) = .ok .finalize256 := by decide

theorem test_decode_finalize512 :
    decode (3#64 ++ 0x1000#64 ++ 0b00000000000000000000000100000011#32) = .ok .finalize512 := by decide

theorem test_decode_finalizeTup :
    decode (3#64 ++ 0x1000#64 ++ 0b00000000000000000000001000000011#32) = .ok .finalizeTup := by decide

theorem test_decode_digest256 :
    decode (3#64 ++ 0x1000#64 ++ 0b00000000000000000000000000000100#32) = .ok .digest256 := by decide

theorem test_decode_digest512 :
    decode (3#64 ++ 0x1000#64 ++ 0b00000000000000000000000100000100#32) = .ok .digest512 := by decide

theorem test_decode_digestTup :
    decode (3#64 ++ 0x1000#64 ++ 0b00000000000000000000001000000100#32) = .ok .digestTup := by decide

theorem test_decode_nextdata :
    decode (3#64 ++ 0x1000#64 ++ 0b00000000000000000000001000000101#32) = .ok (.nextdata 0x1000 3) := by decide

theorem test_decode_lenc :
    decode (3#64 ++ 0x1000#64 ++ 0b00000000000000000000001000000110#32) = .ok (.lenc 3) := by decide

theorem test_decode_renc :
    decode (3#64 ++ 0x1000#64 ++ 0b00000000000000000000001000000111#32) = .ok (.renc 3) := by decide

theorem test_decode_loadw32 :
    decode (3#64 ++ 0x1000#64 ++ 0b00000000000000000000000000001000#32) = .ok (.loadw32 0x1000 3) := by decide

theorem test_decode_loadw64 :
    decode (3#64 ++ 0x1000#64 ++ 0b00000000000000000000000100001000#32) = .ok (.loadw64 0x1000 3) := by decide

/-- The illegal command words of V146, each with the reason R86 gives, the first where two apply (log 11). -/
theorem test_decode_illegal :
    decode 0x00000000#160 = .error .undefinedOp ∧ decode 0x00000301#160 = .error .reservedUnit ∧
    decode 0x00000202#160 = .error .noRow ∧ decode 0x00000401#160 = .error .reservedBits ∧
    decode 0x80000001#160 = .error .reservedBits ∧ decode 0x00000009#160 = .error .undefinedOp ∧
    decode 0x00000105#160 = .error .noRow ∧ decode 0x00000006#160 = .error .noRow ∧
    decode 0x00000208#160 = .error .noRow ∧ decode 0x00000304#160 = .error .reservedUnit ∧
    decode 0x0000000000000005000000000000100a0000ff02#160 = .error .reservedBits := by decide

/-- Every legal pair of `op` and `unit` is a row of R83, and there are sixteen. -/
theorem test_decode_count :
    ((List.range 1024).filter fun w => (decodeTableWord 32 w).isSome).length = 16 := by
  decide +kernel

/-- The descriptor of LENC 256 (V104) and of LOADW.64 0x8, 0x1fffffffffffffff (V71). -/
theorem test_encode :
    encode (.lenc 256) = 0x0000000000000100000000000000000000000206#160 ∧
    encode (.loadw64 8 0x1fffffffffffffff) = 0x1fffffffffffffff000000000000000800000108#160 := by
  decide

/-! ### States the tests run on -/

/-- `pattern(n)` of spec/95_test_vectors.md. -/
def pattern (n : Nat) : List Byte := (List.range n).map (BitVec.ofNat 8)

/-- An engine of unit 0 with a given `HashState`, buffer, count and lifecycle. -/
def eng256 (h : HashState 32) (buf : List Byte) (count : Nat) (l : Life) : Engine 32 64 :=
  { h := h, buf := buf, count := BitVec.ofNat 64 count, life := l }

/-- An engine of unit 1. -/
def eng512 (h : HashState 64) (buf : List Byte) (count : Nat) (l : Life) : Engine 64 128 :=
  { h := h, buf := buf, count := BitVec.ofNat 128 count, life := l }

/-- Power-on, with unit 0 replaced. -/
def with256 (e : Engine 32 64) : State := { State.reset with e256 := e }

/-- Power-on, with unit 1 replaced. -/
def with512 (e : Engine 64 128) : State := { State.reset with e512 := e }

/-- Power-on, with unit 2's `LIFE` replaced. -/
def withTup (l : Life) : State := { State.reset with tup := { life := l } }

/-- A state with bytes stored in caller memory. -/
def storing (s : State) (a : Nat) (bytes : List Byte) : State := hostStore s a bytes

/-- The state a command leaves. -/
def after (i : Instr) (s : State) : State :=
  match exec i s with
  | .next t => t
  | .fault _ => s
  | .refused _ => s

/-- The response a command gives. -/
def answer (i : Instr) (s : State) : Option Response := (after i s).responses.getLast?

/-- V149's address space: `MEM_VALID` false exactly on `[0xF000, 0x10000)`. -/
def holed : State := State.powerOn { defaultParams with holes := [⟨0xF000, 0x1000⟩] }

/-! ### Tables and functions (spec/95_test_vectors.md section 1) -/

/-- XOR and sum of each table. -/
theorem test_table_checksums :
    k256.length = 64 ∧ k256.foldl (· ^^^ ·) 0 = 0x95c49cf5#32 ∧
    k256.foldl (· + ·) 0 = 0x941d1755#32 ∧
    k512.length = 80 ∧ k512.foldl (· ^^^ ·) 0 = 0xd4b82f4e9d920e3b#64 ∧
    k512.foldl (· + ·) 0 = 0x9bde35dffda2dffd#64 ∧
    iv256.words.foldl (· ^^^ ·) 0 = 0xc62760eb#32 ∧
    iv256.words.foldl (· + ·) 0 = 0x6ea8df67#32 ∧
    iv512.words.foldl (· ^^^ ·) 0 = 0xd3baeb0b7e83faba#64 ∧
    iv512.words.foldl (· + ·) 0 = 0x5db86523aaecff1c#64 := by decide +kernel

/-- "`K512[t] >> 32 = K256[t]` for `t` below 64", so no two words of a table stand in each other's place. -/
theorem test_table_order :
    (k512.take 64).map (fun x => x.extractLsb' 32 32) = k256 := by decide +kernel

/-- The spot values of 6a09e667 on 32-bit words. -/
theorem test_sigma_32 :
    bsig0x32 0x6a09e667#32 = 0xce20b47e#32 ∧ bsig1x32 0x6a09e667#32 = 0x55b65510#32 ∧
    ssig0x32 0x6a09e667#32 = 0xba0cf582#32 ∧ ssig1x32 0x6a09e667#32 = 0xcfe5da3c#32 := by decide +kernel

/-- The spot values of 6a09e667f3bcc908 on 64-bit words. -/
theorem test_sigma_64 :
    bsig0x64 0x6a09e667f3bcc908#64 = 0x08c4db56aac80c2a#64 ∧ bsig1x64 0x6a09e667f3bcc908#64 = 0x259a6cc1643336ef#64 ∧
    ssig0x64 0x6a09e667f3bcc908#64 = 0x3dbae91951caa1df#64 ∧ ssig1x64 0x6a09e667f3bcc908#64 = 0xc8c619e73ee44510#64 := by decide +kernel

/-- The spot values of `Ch` and `Maj`. -/
theorem test_ch_maj :
    ch 0xff00ff00#32 0x12345678#32 0x9abcdef0#32 = 0x12bc56f0#32 ∧
    maj 0xff00ff00#32 0x12345678#32 0x9abcdef0#32 = 0x9a34de70#32 := by decide +kernel

/-- V41. -/
theorem test_compress256_ff :
    compress256 iv256 (List.replicate 64 0xff) =
      ⟨0xef0c748d#32, 0xf4da50a8#32, 0xd6c43c01#32, 0x3edc3ce7#32, 0x6c9d9fa9#32, 0xa1458ade#32,
        0x56eb86c0#32, 0xa64492d2#32⟩ := by decide +kernel

/-- V42. -/
theorem test_compress256_zero :
    compress256 ⟨0, 0, 0, 0, 0, 0, 0, 0⟩ (zeros 64) =
      ⟨0x7ca51614#32, 0x425c3ba8#32, 0xce54dd2f#32, 0xc2020ae7#32, 0xb6e574d1#32, 0x98136d0f#32,
        0xae7e26cc#32, 0xbf0be7a6#32⟩ := by decide +kernel

/-- V51. -/
theorem test_compress512_ff :
    compress512 iv512 (List.replicate 128 0xff) =
      ⟨0x172bb3287b48a05f#64, 0x1a2fb05b5f3fb691#64, 0x0c6cadda337d1b50#64, 0x33d1f1a48b67de7a#64,
        0x6cf52db8476ae18a#64, 0xc720ccf638cd067c#64, 0xfea2136792783634#64, 0x59f71f47e2302fd8#64⟩ := by decide +kernel

/-- V52. -/
theorem test_compress512_zero :
    compress512 ⟨0, 0, 0, 0, 0, 0, 0, 0⟩ (zeros 128) =
      ⟨0xad3a5da838ebf830#64, 0x5d7142ff85fcbedb#64, 0x7fa8bf86d6f7ca99#64, 0x1c6b15b039d70bbf#64,
        0x29f6515289923518#64, 0x6fd7101d5f2e8f3a#64, 0x1c358d2476531450#64, 0x568c0d99d756dc3c#64⟩ := by decide +kernel

/-- The zero bytes R140 inserts, both sides of every boundary (section 3). -/
theorem test_zero_fill :
    [0, 54, 55, 56, 57, 63].map (fun n => zeroFill 64 8 (n + 1)) = [55, 1, 0, 63, 62, 56] ∧
    [0, 110, 111, 112, 113, 119, 127].map (fun n => zeroFill 128 16 (n + 1)) =
      [111, 1, 0, 127, 126, 120, 112] := by decide

/-- The length fields V75, V77, V80, V82 and V85. -/
theorem test_length_field :
    lengthBytes 8 (2 ^ 29) = [0, 0, 0, 1, 0, 0, 0, 0] ∧
    lengthBytes 8 (2 ^ 61 - 1) = [0xff, 0xff, 0xff, 0xff, 0xff, 0xff, 0xff, 0xf8] ∧
    lengthBytes 16 (2 ^ 61) = [0, 0, 0, 0, 0, 0, 0, 1, 0, 0, 0, 0, 0, 0, 0, 0] ∧
    lengthBytes 16 0x3000000000000001 = [0, 0, 0, 0, 0, 0, 0, 1, 0x80, 0, 0, 0, 0, 0, 0, 8] ∧
    lengthBytes 16 (2 ^ 125 - 1) =
      [0xff, 0xff, 0xff, 0xff, 0xff, 0xff, 0xff, 0xff, 0xff, 0xff, 0xff, 0xff, 0xff, 0xff, 0xff, 0xf8] := by
  decide +kernel

/-- Nine-byte length encodings, out of LENC's reach and inside NEXTDATA's, and the round trips (section
7). -/
theorem test_length_codes :
    leftEncode (2 ^ 64) = [9, 1, 0, 0, 0, 0, 0, 0, 0, 0] ∧
    leftEncode (2 ^ 67 - 8) = [9, 7, 0xff, 0xff, 0xff, 0xff, 0xff, 0xff, 0xff, 0xf8] ∧
    leftDecode [2, 1, 0, 0xaa, 0xbb] = (256, [0xaa, 0xbb]) ∧
    rightDecode [0xaa, 0xbb, 1, 0, 2] = ([0xaa, 0xbb], 256) := by decide +kernel

/-- Sixty-four characters, lowercase, high digit first (R94), of the first bytes of V1. -/
theorem test_hex : toHexString [0xe3, 0xb0, 0xc4, 0x42] = ['e', '3', 'b', '0', 'c', '4', '4', '2'] := by
  decide +kernel

/-! ### One step of each command -/

/-- RESET.256 from a Faulted unit with V88's contents (R102). -/
theorem test_reset256 :
    let t := after .reset256 (with256 (eng256 iv256 (pattern 63) (2 ^ 61 - 1) .faulted))
    t.e256 = eng256 iv256 [] 0 .fresh ∧ t.responses = [.ok []] := by decide +kernel

/-- RESET.512 from a Finalized unit (R103). -/
theorem test_reset512 :
    let t := after .reset512 (with512 (eng512 ⟨1, 2, 3, 4, 5, 6, 7, 8⟩ [] 3 .finalized))
    t.e512 = eng512 iv512 [] 0 .fresh ∧ t.responses = [.ok []] := by decide +kernel

/-- RESET.TUP appends its event and clears nothing (V153). -/
theorem test_resetTup :
    let t := after .resetTup { withTup .faulted with xlog := [.xRead] }
    t.tup.life = .fresh ∧ t.xlog = [.xRead, .xReset] := by decide +kernel

/-- Command 2 of P2: a top-up, one compression, a tail of six bytes. -/
theorem test_ingest256 :
    let s := storing (with256 (eng256 iv256 (pattern 50) 50 .accepting)) 0x3001
      ((pattern 70).drop 50)
    (after (.ingest256 0x3001 20) s).e256 =
      eng256
        ⟨0xfc99a2df#32, 0x88f42a7a#32, 0x7bb9d180#32, 0x33cdc6a2#32, 0x0256755f#32, 0x9d5b9a50#32,
          0x44a9cc31#32, 0x5abe84a7#32⟩
        [0x40, 0x41, 0x42, 0x43, 0x44, 0x45] 70 .accepting := by decide +kernel

/-- V148 and V150: a range that ends at `2^64` passes the address check, the count does not fit, and a
Finalized unit answers MISUSE first. -/
theorem test_ingest256_faults :
    answer (.ingest256 1 0xffffffffffffffff) State.reset = some (.fault .lenOverflow) ∧
    answer (.ingest256 0xfffffffffffffff0 17) State.reset = some (.fault .addrRange) ∧
    answer (.ingest256 0xffffffffffffffff 2) (with256 (eng256 iv256 [] 0 .finalized)) =
      some (.fault .misuse) := by decide +kernel

/-- Command 2 of P4. -/
theorem test_ingest512 :
    let s := storing
      (with512 (eng512
        ⟨0x6f1a450ec15af205#64, 0x72d0d1ee6518104d#64, 0x7cbbbe79a038557a#64, 0xf5450ed7dbd420b5#64,
          0x3b7335209e951b4d#64, 0x9aff401f90549b96#64, 0x04fa3d823fbb8581#64,
          0xc73582a88aa84022#64⟩
        ((pattern 200).drop 128) 200 .accepting))
      0x50cf ((pattern 300).drop 200)
    (after (.ingest512 0x50cf 100) s).e512 =
      eng512
        ⟨0x1296ded391eb591b#64, 0x2368b386cb373303#64, 0x12846d7b203a05a5#64, 0x5b23e96b95b98816#64,
          0x2687a9c93b3a63ef#64, 0x616997162863fa68#64, 0xe6871882063bdcc8#64,
          0x37d46fcb6d934aee#64⟩
        ((pattern 300).drop 256) 300 .accepting := by decide +kernel

/-- A Faulted unit refuses a zero-length INGEST too (R129, R233). -/
theorem test_ingest512_faulted :
    answer (.ingest512 0 0) (with512 (eng512 iv512 [] 0 .faulted)) = some (.fault .unitFaulted) := by decide +kernel

/-- Command 4 of P2: 56 buffered bytes, two padding blocks. -/
theorem test_finalize256 :
    (after .finalize256 (with256 (eng256
        ⟨0xfc99a2df#32, 0x88f42a7a#32, 0x7bb9d180#32, 0x33cdc6a2#32, 0x0256755f#32, 0x9d5b9a50#32,
          0x44a9cc31#32, 0x5abe84a7#32⟩
        ((pattern 120).drop 64) 120 .accepting))).e256 =
      eng256
        ⟨0xf52b23db#32, 0x1fbb6ded#32, 0x89ef42a2#32, 0x3ce0c892#32, 0x2c45f25c#32, 0x50b568a9#32,
          0x3bf1c075#32, 0x420bbb7c#32⟩ [] 120 .finalized := by decide +kernel

/-- V88: the largest count. -/
theorem test_finalize256_max :
    digest dlen256 (after .finalize256 (with256 (eng256 iv256 (pattern 63) (2 ^ 61 - 1) .accepting))).e256.h =
      [0x8b, 0x39, 0x4e, 0x75, 0x8d, 0x88, 0xa7, 0xca, 0x74, 0xd3, 0x8f, 0x03, 0x02, 0xcb, 0x1b,
        0x47, 0x97, 0x19, 0x4d, 0x0e, 0xa1, 0xb8, 0x8c, 0xeb, 0xd3, 0x85, 0xdf, 0x38, 0x94, 0x11,
        0x07, 0x59] := by decide +kernel

/-- V87: the bit count carries into the high half. -/
theorem test_finalize512_wide :
    digest 28 (after .finalize512 (with512 (eng512 iv512 (pattern 5) (2 ^ 61 + 5) .accepting))).e512.h =
      [0xbf, 0x60, 0x43, 0x0f, 0xcf, 0x75, 0x3c, 0x95, 0xf5, 0xb8, 0x45, 0xcd, 0x2c, 0x08, 0xce,
        0xa9, 0x67, 0x08, 0xfc, 0x9c, 0x9e, 0x18, 0x8b, 0x71, 0x98, 0x6d, 0x13, 0xb6] := by decide +kernel

/-- V144. -/
theorem test_finalize512_twice :
    answer .finalize512 (with512 (eng512 iv512 [] 0 .finalized)) = some (.fault .misuse) := by decide +kernel

/-- V128: an output length of three bytes, then the primitive's finalize. -/
theorem test_finalizeTup :
    let s := State.powerOn { defaultParams with tup := { outlenBytes := 8192, custom := [] } }
    let t := after .finalizeTup s
    t.tup.life = .finalized ∧ t.xlog = [.xAbsorb [1, 0, 0, 3], .xFinalize] := by decide +kernel

/-- V1, on the state V44 gives. -/
theorem test_digest256 :
    answer .digest256 (with256 (eng256
        ⟨0xe3b0c442#32, 0x98fc1c14#32, 0x9afbf4c8#32, 0x996fb924#32, 0x27ae41e4#32, 0x649b934c#32,
          0xa495991b#32, 0x7852b855#32⟩ [] 0 .finalized)) =
      some (.ok
        [0xe3, 0xb0, 0xc4, 0x42, 0x98, 0xfc, 0x1c, 0x14, 0x9a, 0xfb, 0xf4, 0xc8, 0x99, 0x6f, 0xb9,
          0x24, 0x27, 0xae, 0x41, 0xe4, 0x64, 0x9b, 0x93, 0x4c, 0xa4, 0x95, 0x99, 0x1b, 0x78, 0x52,
          0xb8, 0x55]) := by decide +kernel

/-- P3: half of `H[3]` is not emitted. -/
theorem test_digest512 :
    answer .digest512 (with512 (eng512
        ⟨0x4634270f707b6a54#64, 0xdaae7530460842e2#64, 0x0e37ed265ceee9a4#64, 0x3e8924aaf57c93d9#64,
          0x21b1998c870fc454#64, 0x2b78ab140e3c5c5c#64, 0x3d7d0e514a0f33fe#64,
          0x1659eb86a7d9f03e#64⟩
        [] 3 .finalized)) =
      some (.ok
        [0x46, 0x34, 0x27, 0x0f, 0x70, 0x7b, 0x6a, 0x54, 0xda, 0xae, 0x75, 0x30, 0x46, 0x08, 0x42,
          0xe2, 0x0e, 0x37, 0xed, 0x26, 0x5c, 0xee, 0xe9, 0xa4, 0x3e, 0x89, 0x24, 0xaa]) := by decide +kernel

/-- R47 and D3: an instance whose `DLEN(1)` is 10 emits all of `H[0]` and the first two bytes of `H[1]`. -/
theorem test_digest512_dlen :
    answer .digest512 { State.powerOn { defaultParams with dlen512 := 10 } with
        e512 := eng512 ⟨0x0001020304050607#64, 0x08090a0b0c0d0e0f#64, 0, 0, 0, 0, 0, 0⟩ [] 3 .finalized } =
      some (.ok [0, 1, 2, 3, 4, 5, 6, 7, 8, 9]) := by decide +kernel

/-- V153: DIGEST.TUP is accepted before FINALIZE.TUP and changes no `LIFE`. -/
theorem test_digestTup :
    (after .digestTup State.reset).tup.life = .fresh ∧ (after .digestTup State.reset).xlog = [.xRead] := by decide +kernel

/-- The second row of V123's log. -/
theorem test_nextdata :
    let t := after (.nextdata 0x2000 2) (storing State.reset 0x2000 [0x61, 0x62])
    t.tup.life = .accepting ∧ t.xlog = [.xAbsorb [0x01, 0x10], .xAbsorb [0x61, 0x62]] := by decide +kernel

/-- V129: the length in bits needs two bytes. -/
theorem test_nextdata_wide :
    (after (.nextdata 0x2000 32) (storing State.reset 0x2000 (pattern 32))).xlog =
      [.xAbsorb [0x02, 0x01, 0x00], .xAbsorb (pattern 32)] := by decide +kernel

/-- V104 and V114. -/
theorem test_lenc :
    answer (.lenc 256) State.reset = some (.ok [2, 1, 0]) ∧
    answer (.lenc (2 ^ 64 - 1)) State.reset =
      some (.ok [8, 0xff, 0xff, 0xff, 0xff, 0xff, 0xff, 0xff, 0xff]) := by decide +kernel

/-- V100 and V104. -/
theorem test_renc :
    answer (.renc 0) State.reset = some (.ok [0, 1]) ∧
    answer (.renc 256) State.reset = some (.ok [1, 0, 2]) := by decide +kernel

/-- V62 and V70: an unaligned word, and an index that is not reduced modulo `2^64`. -/
theorem test_loadw32 :
    answer (.loadw32 0x1001 7) (storing State.reset 0x1001 (pattern 32)) =
      some (.ok [0x1c, 0x1d, 0x1e, 0x1f]) ∧
    answer (.loadw32 0 0x4000000000000000) State.reset = some (.fault .addrRange) := by decide +kernel

/-- V149: the address range is checked against `MEM_VALID`. -/
theorem test_loadw32_hole :
    answer (.loadw32 0xeffd 0) holed = some (.fault .addrRange) ∧
    answer (.loadw32 0xeffc 0) (storing holed 0xefc0 (pattern 64)) =
      some (.ok [0x3c, 0x3d, 0x3e, 0x3f]) := by decide +kernel

/-- V65 and V71. -/
theorem test_loadw64 :
    answer (.loadw64 0x1002 3) (storing State.reset 0x1001 (pattern 32)) =
      some (.ok [0x19, 0x1a, 0x1b, 0x1c, 0x1d, 0x1e, 0x1f, 0x00]) ∧
    answer (.loadw64 8 0x1fffffffffffffff) State.reset = some (.fault .addrRange) := by decide +kernel

/-- V68 and V69: the last eight bytes of the address space, and one byte further. -/
theorem test_loadw64_top :
    answer (.loadw64 0xfffffffffffffff8 0) State.reset = some (.ok [0, 0, 0, 0, 0, 0, 0, 0]) ∧
    answer (.loadw64 0xfffffffffffffff9 0) State.reset = some (.fault .addrRange) := by decide +kernel

/-- A step runs the command a word decodes to as the first one after power-on. -/
theorem test_step_runs_word :
    step (State.reset.withFetchWord 32 0x00000003) = exec .finalize256 State.reset := by rfl

/-- An illegal descriptor changes nothing but the responses (V146). -/
theorem test_step_illegal :
    step (State.reset.withFetchWord 32 0x00000301) =
      .next { State.reset with responses := [.fault .illegalCmd] } := by rfl

/-- Caller memory keeps its canonical form: storing the byte an unlisted address reads as removes the
cell, and power-on memory has the form. -/
theorem test_memory_canonical :
    Memory.store (Memory.store [] 7 [1, 2, 3]) 8 [0] = [(7, 1), (9, 3)] ∧
    Memory.wf State.reset.mem := by decide +kernel

/-! ### Witnesses: the hypotheses of every obligation can be met, clause by clause -/

/-- A command that answers a next state, whichever it is. -/
theorem exec_answers (i : Instr) (s : State) : exec i s = .next (after i s) := by
  cases i <;> rfl

/-- Operands at the ends of their fields. -/
theorem witness_DecodeEncodeRoundTrip :
    (Instr.ingest256 (2 ^ 64 - 1) (2 ^ 64 - 1)).wellFormed = true ∧
    (Instr.nextdata 0 (2 ^ 64 - 1)).wellFormed = true ∧
    (Instr.lenc (2 ^ 64 - 1)).wellFormed = true ∧ Instr.reset256.wellFormed = true := by decide

theorem witness_DecodeByCommandWord : (2 ^ 64 - 1 : Nat) < 2 ^ 64 ∧ (0 : Nat) < 2 ^ 64 := by decide

theorem witness_IllegalExactlyOutsideTable :
    (State.reset.withFetchWord 32 0x00000009).pending =
      .command (BitVec.ofNat 160 (0x00000009 % 2 ^ 32)) :: [] ∧
    Descriptor.cw 0x00000009#160 ∉
      ([0x00000001, 0x00000101, 0x00000201, 0x00000002, 0x00000102, 0x00000003, 0x00000103,
        0x00000203, 0x00000004, 0x00000104, 0x00000204, 0x00000205, 0x00000206, 0x00000207,
        0x00000008, 0x00000108] : List (BitVec 32)) := by decide +kernel

theorem witness_StepRunsDecodedCommand :
    (State.reset.withFetchWord 32 0x00000206).pending = [.command 0x00000206#160] ∧
    decode 0x00000206#160 = .ok (.lenc 0) := by decide +kernel

theorem witness_FetchWordRunsInstruction :
    decodeTableWord 32 0x00000001 = some .reset256 ∧
    decodeTableWord 160 (0x100 * 2 ^ 96 + 0x00000206) = some (.lenc 256) := by decide +kernel

/-- The first part: a pending command. -/
theorem witness_OneResponsePerCommand_pending :
    (State.reset.withFetchWord 32 0x00000001).pending = .command 0x00000001#160 :: [] := by
  decide +kernel

/-- The third part: every command answers `OK` somewhere. -/
theorem witness_OneResponsePerCommand :
    (∃ p, (after .reset256 State.reset).responses = [.ok p]) ∧
    (∃ p, (after .reset512 State.reset).responses = [.ok p]) ∧
    (∃ p, (after .resetTup State.reset).responses = [.ok p]) ∧
    (∃ p, (after (.ingest256 0 0) State.reset).responses = [.ok p]) ∧
    (∃ p, (after (.ingest512 0 0) State.reset).responses = [.ok p]) ∧
    (∃ p, (after .finalize256 State.reset).responses = [.ok p]) ∧
    (∃ p, (after .finalize512 State.reset).responses = [.ok p]) ∧
    (∃ p, (after .finalizeTup State.reset).responses = [.ok p]) ∧
    (∃ p, (after .digest256 (with256 (eng256 iv256 [] 0 .finalized))).responses = [.ok p]) ∧
    (∃ p, (after .digest512 (with512 (eng512 iv512 [] 0 .finalized))).responses = [.ok p]) ∧
    (∃ p, (after .digestTup State.reset).responses = [.ok p]) ∧
    (∃ p, (after (.nextdata 0 0) State.reset).responses = [.ok p]) ∧
    (∃ p, (after (.lenc (2 ^ 64 - 1)) State.reset).responses = [.ok p]) ∧
    (∃ p, (after (.renc 0) State.reset).responses = [.ok p]) ∧
    (∃ p, (after (.loadw32 0xfffffffffffffffc 0) State.reset).responses = [.ok p]) ∧
    (∃ p, (after (.loadw64 0xfffffffffffffff8 0) State.reset).responses = [.ok p]) := by
  refine ⟨⟨_, rfl⟩, ⟨_, rfl⟩, ⟨_, rfl⟩, ⟨_, rfl⟩, ⟨_, rfl⟩, ⟨_, rfl⟩, ⟨_, rfl⟩, ⟨_, rfl⟩, ⟨_, rfl⟩,
    ⟨_, rfl⟩, ⟨_, rfl⟩, ⟨_, rfl⟩, ⟨_, rfl⟩, ⟨_, rfl⟩, ⟨_, rfl⟩, ⟨_, rfl⟩⟩

theorem witness_IdleAndResetPin :
    State.reset.pending = [] ∧
    ({ State.reset with pending := [.resetPin] } : State).pending = .resetPin :: [] := by
  decide +kernel

/-- A store whose last byte is the last of the address space. -/
theorem witness_HostStoreReadBack :
    Memory.wf State.reset.mem ∧ (2 ^ 64 - 3) + ([1, 2, 3] : List Byte).length ≤ 2 ^ 64 ∧
    ({ State.reset with pending := [.store (2 ^ 64 - 3) [1, 2, 3]] } : State).pending =
      .store (2 ^ 64 - 3) [1, 2, 3] :: [] := by decide +kernel

/-- The invariant on a state that is not power-on: 63 buffered bytes, the largest count, a stored byte. -/
theorem busy_inv :
    State.Inv (storing (with256 (eng256 iv256 (pattern 63) (2 ^ 61 - 1) .accepting)) 9 [1]) where
  e256 :=
    { bufShort := by decide
      countFits := by decide
      bufIsTail := fun _ => by decide
      finalizedEmpty := fun h => absurd h (by decide)
      freshInitial := fun h => absurd h (by decide) }
  e512 :=
    { bufShort := by decide
      countFits := by decide
      bufIsTail := fun _ => rfl
      finalizedEmpty := fun _ => rfl
      freshInitial := fun _ => rfl }
  mem := by decide

/-- A step from that state: FINALIZE.256. -/
theorem witness_StepKeepsInvariant :
    ∃ s t : State, s.Inv ∧ s.pending = [.command 0x00000003#160] ∧ step s = .next t := by
  refine ⟨{ storing (with256 (eng256 iv256 (pattern 63) (2 ^ 61 - 1) .accepting)) 9 [1] with
    pending := [.command 0x00000003#160] }, _, ⟨busy_inv.e256, busy_inv.e512, busy_inv.mem⟩, rfl, rfl⟩

theorem witness_XlogAppendOnly :
    (∃ t, step (State.reset.withFetchWord 32 0x00000203) = .next t ∧ t.xlog ≠ []) ∧
    (∃ t, exec .finalizeTup State.reset = .next t) ∧ ∃ t, exec .resetTup State.reset = .next t :=
  ⟨⟨_, rfl, by decide⟩, ⟨_, rfl⟩, _, rfl⟩

theorem witness_CommandsLeaveInputsAlone : ∃ t, exec .finalizeTup State.reset = .next t := ⟨_, rfl⟩

theorem witness_CommandChangesOnlyItsUnit :
    addressedUnit .reset512 ≠ some .e256 ∧ addressedUnit .reset256 ≠ some .e512 ∧
    addressedUnit (.lenc 0) ≠ some .tup ∧ ∃ t, exec (.lenc 0) State.reset = .next t :=
  ⟨by decide, by decide, by decide, _, rfl⟩

/-- A memory that differs just outside the three bytes an INGEST reads, on both sides. -/
theorem witness_CommandReadsOnlyItsRange :
    let s := storing State.reset 0x1000 [0x61, 0x62, 0x63]
    let m := Memory.store [] 0xfff [9, 0x61, 0x62, 0x63, 9]
    (∀ x, (readRange (.ingest256 0x1000 3)).1 ≤ x →
      x < (readRange (.ingest256 0x1000 3)).1 + (readRange (.ingest256 0x1000 3)).2 →
      Memory.read m x = Memory.read s.mem x) ∧
    m ≠ s.mem ∧ ∃ t, exec (.ingest256 0x1000 3) s = .next t := by
  refine ⟨fun x h1 h2 => ?_, by decide +kernel, _, rfl⟩
  obtain rfl | rfl | rfl : x = 0x1000 ∨ x = 0x1001 ∨ x = 0x1002 := by
    simp only [readRange] at h1 h2
    omega
  all_goals decide +kernel

/-- Two states that agree on caller memory, the parameters and one unit, for each unit and for none. -/
theorem witness_UnitEvolvesOnItsOwn :
    let s := State.reset
    let s' := { with512 (eng512 iv512 [] 0 .faulted) with responses := [.ok []] }
    s.mem = s'.mem ∧ s.params = s'.params ∧ s ≠ s' ∧
    (addressedUnit .finalize256 = some .e256 ∧ s.e256 = s'.e256) ∧
    (addressedUnit .finalize512 = some .e512 ∧
      (withTup .faulted).e512 = s.e512 ∧ withTup .faulted ≠ s) ∧
    (addressedUnit .finalizeTup = some .tup ∧ s.tup = s'.tup ∧ s.xlog = s'.xlog) ∧
    addressedUnit (.loadw32 0 0) = none := by decide +kernel

/-- Out of Faulted by RESET and by the reset pin. -/
theorem witness_OnlyResetLeavesFaulted :
    (∃ t, step ((withTup .faulted).withFetchWord 32 0x00000201) = .next t ∧
      ((withTup .faulted).withFetchWord 32 0x00000201).life .tup = .faulted ∧
      t.life .tup ≠ .faulted) ∧
    ∃ t, step { withTup .faulted with pending := [.resetPin] } = .next t ∧
      t.life .tup ≠ .faulted :=
  ⟨⟨_, rfl, rfl, by decide⟩, _, rfl, by decide⟩

/-- An `OK`, a fault that marks the unit and a fault that does not. -/
theorem witness_FaultsArePrecise :
    (∃ t, exec .finalizeTup State.reset = .next t ∧ t.responses = [.ok []]) ∧
    (∃ t, exec .digest256 State.reset = .next t ∧ t.responses = [.fault .misuse] ∧
      t.life .e256 = .faulted) ∧
    ∃ t, exec (.loadw32 0 (2 ^ 63)) State.reset = .next t ∧ t.responses = [.fault .addrRange] ∧
      t.life .e256 = .fresh :=
  ⟨⟨_, rfl, rfl⟩, ⟨_, rfl, rfl, rfl⟩, _, rfl, rfl, rfl⟩

theorem witness_LifecycleArrowsOnly :
    ∃ t, step (State.reset.withFetchWord 32 0x00000203) = .next t ∧ t.life .tup = .finalized :=
  ⟨_, rfl, rfl⟩

/-- A Fresh unit and an Accepting one. -/
theorem witness_FreshAcceptingAlike :
    State.reset.merge = (withTup .accepting).merge ∧ State.reset ≠ withTup .accepting ∧
    State.reset.merge = (with256 { State.reset.e256 with life := .accepting }).merge ∧
    (∃ t, exec .finalizeTup State.reset = .next t) ∧
    ∃ t, exec .finalizeTup (withTup .accepting) = .next t :=
  ⟨by decide +kernel, by decide +kernel, by decide +kernel, ⟨_, rfl⟩, _, rfl⟩

/-- Two Faulted engines that differ in `H`, `BUF` and `COUNT`, in unit 0 and in unit 1. -/
theorem witness_FaultedDataUnobservable :
    (let e := eng256 ⟨1, 2, 3, 4, 5, 6, 7, 8⟩ [9] 1 .faulted
     let s := with256 (eng256 iv256 [] 0 .faulted)
     s.e256.life = .faulted ∧ e.life = .faulted ∧ e ≠ s.e256 ∧
      (∃ t, exec .digest256 s = .next t) ∧ ∃ t, exec .digest256 { s with e256 := e } = .next t) ∧
    (let e := eng512 ⟨1, 2, 3, 4, 5, 6, 7, 8⟩ [9] 1 .faulted
     let s := with512 (eng512 iv512 [] 0 .faulted)
     s.e512.life = .faulted ∧ e.life = .faulted ∧ e ≠ s.e512 ∧
      (∃ t, exec .reset512 s = .next t) ∧ ∃ t, exec .reset512 { s with e512 := e } = .next t) :=
  ⟨⟨rfl, rfl, by decide +kernel, ⟨_, rfl⟩, _, rfl⟩, rfl, rfl, by decide +kernel, ⟨_, rfl⟩, _, rfl⟩

theorem witness_Digest256Completes :
    (with256 (eng256 iv256 [] 3 .finalized)).e256.life = .finalized := rfl

/-- The default digest length, and the two ends of its range. -/
theorem witness_Digest512Completes :
    (let s := with512 (eng512 iv512 [] 3 .finalized)
     s.e512.life = .finalized ∧ s.params.dlen512 = 28) ∧
    ∀ n ∈ [(0 : Fin 65), 64],
      let s := { State.powerOn { defaultParams with dlen512 := n } with
        e512 := eng512 iv512 [] 3 .finalized }
      s.e512.life = .finalized ∧ s.params.dlen512 = n := by decide +kernel

theorem witness_DigestTupCompletes :
    (withTup .fresh).tup.life ≠ .faulted ∧ (withTup .accepting).tup.life ≠ .faulted ∧
    (withTup .finalized).tup.life ≠ .faulted := by decide

/-- One state for each refused clause of the DIGEST and FINALIZE statements of all three units. -/
theorem witness_DigestFinalizeCompletes_refused :
    (with256 (eng256 iv256 [] 0 .fresh)).e256.life = .fresh ∧
    (with256 (eng256 iv256 [1] 1 .accepting)).e256.life = .accepting ∧
    (with512 (eng512 iv512 [1] 1 .accepting)).e512.life = .accepting ∧
    (with256 (eng256 iv256 [] 1 .finalized)).e256.life = .finalized ∧
    (with512 (eng512 iv512 [] 1 .finalized)).e512.life = .finalized ∧
    (withTup .finalized).tup.life = .finalized ∧
    (with256 (eng256 iv256 [1] 1 .faulted)).e256.life = .faulted ∧
    (with512 (eng512 iv512 [1] 1 .faulted)).e512.life = .faulted ∧
    (withTup .faulted).tup.life = .faulted := by decide

/-- A range that ends at `2^64`, a range that ends at a hole, and the empty range inside one. -/
theorem readable_examples :
    Readable [] (2 ^ 64 - 65) 65 ∧ Readable holed.params.holes 0xefc0 64 ∧
    Readable holed.params.holes 0xf000 0 ∧ Readable holed.params.holes 0x10000 1 :=
  ⟨(readable_iff _ _ _).mp (by decide +kernel), (readable_iff _ _ _).mp (by decide +kernel),
    (readable_iff _ _ _).mp (by decide +kernel), (readable_iff _ _ _).mp (by decide +kernel)⟩

/-- A range that passes `2^64` by one byte, and one that reaches one byte into a hole. -/
theorem not_readable_examples :
    ¬Readable [] (2 ^ 64 - 65) 66 ∧ ¬Readable holed.params.holes 0xefc0 65 ∧
    ¬Readable holed.params.holes 0xffff 1 :=
  ⟨(readable_eq_false_iff _ _ _).mp (by decide +kernel),
    (readable_eq_false_iff _ _ _).mp (by decide +kernel),
    (readable_eq_false_iff _ _ _).mp (by decide +kernel)⟩

/-- 63 buffered bytes, a range that ends at `2^64`, a count that reaches `MAXCOUNT` exactly; and Fresh. -/
theorem witness_Ingest256Completes :
    (let s := with256 (eng256 iv256 (pattern 63) (2 ^ 61 - 66) .accepting)
     s.e256.life = .accepting ∧ s.e256.buf.length < 64 ∧ Readable s.params.holes (2 ^ 64 - 65) 65 ∧
      s.e256.count.toNat + 65 ≤ 2 ^ 61 - 1) ∧
    State.reset.e256.life = .fresh ∧ State.reset.e256.buf.length < 64 ∧
    Readable State.reset.params.holes 5 0 ∧ State.reset.e256.count.toNat + 0 ≤ 2 ^ 61 - 1 :=
  ⟨⟨rfl, by decide, readable_examples.1, by decide⟩, rfl, by decide, .inl rfl, by decide⟩

theorem witness_Ingest512Completes :
    (let s := with512 (eng512 iv512 (pattern 127) (2 ^ 125 - 66) .accepting)
     s.e512.life = .accepting ∧ s.e512.buf.length < 128 ∧
      Readable s.params.holes (2 ^ 64 - 65) 65 ∧ s.e512.count.toNat + 65 ≤ 2 ^ 125 - 1) ∧
    State.reset.e512.life = .fresh ∧ State.reset.e512.buf.length < 128 ∧
    Readable State.reset.params.holes 5 0 ∧ State.reset.e512.count.toNat + 0 ≤ 2 ^ 125 - 1 :=
  ⟨⟨rfl, by decide, readable_examples.1, by decide⟩, rfl, by decide, .inl rfl, by decide⟩

/-- Each clause: Faulted, Finalized, a range one byte too long, a count one byte too large. -/
theorem witness_Ingest256Completes_refused :
    (with256 (eng256 iv256 [] 0 .faulted)).e256.life = .faulted ∧
    (with256 (eng256 iv256 [] 0 .finalized)).e256.life = .finalized ∧
    (State.reset.e256.life = .fresh ∧ ¬Readable State.reset.params.holes (2 ^ 64 - 65) 66) ∧
    (holed.e256.life = .fresh ∧ ¬Readable holed.params.holes 0xefc0 65) ∧
    (let s := with256 (eng256 iv256 (pattern 63) (2 ^ 61 - 1) .accepting)
     s.e256.life = .accepting ∧ Readable s.params.holes 0x1000 1 ∧
      2 ^ 61 - 1 < s.e256.count.toNat + 1) :=
  ⟨rfl, rfl, ⟨rfl, not_readable_examples.1⟩, ⟨rfl, not_readable_examples.2.1⟩, rfl,
    (readable_iff _ _ _).mp (by decide +kernel), by decide⟩

theorem witness_Ingest512Completes_refused :
    (with512 (eng512 iv512 [] 0 .faulted)).e512.life = .faulted ∧
    (with512 (eng512 iv512 [] 0 .finalized)).e512.life = .finalized ∧
    (State.reset.e512.life = .fresh ∧ ¬Readable State.reset.params.holes (2 ^ 64 - 65) 66) ∧
    (let s := with512 (eng512 iv512 (pattern 127) (2 ^ 125 - 1) .accepting)
     s.e512.life = .accepting ∧ Readable s.params.holes 0x1000 1 ∧
      2 ^ 125 - 1 < s.e512.count.toNat + 1) :=
  ⟨rfl, rfl, ⟨rfl, not_readable_examples.1⟩, rfl, (readable_iff _ _ _).mp (by decide +kernel),
    by decide⟩

/-- The invariant of one unit in each lifecycle state, for any family and count of no bytes. -/
theorem empty_inv {w c : Nat} (F : Family w) (hB : 0 < F.blockBytes) (iv : HashState w) (l : Life) :
    Engine.Inv F iv { Engine.initial c iv with life := l } where
  bufShort := hB
  countFits := by simp [Engine.initial]
  bufIsTail := fun _ => by simp [Engine.initial]
  finalizedEmpty := fun _ => rfl
  freshInitial := fun h => by cases h; rfl

theorem witness_ZeroLengthIngest (l : Life) :
    (let s := with256 { State.reset.e256 with life := l }
     s.e256.Inv sha256 s.params.iv256 ∧ s.e512.Inv sha512t s.params.iv512 ∧ s.e256.life = l) ∧
    (let s := with512 { State.reset.e512 with life := l }
     s.e256.Inv sha256 s.params.iv256 ∧ s.e512.Inv sha512t s.params.iv512 ∧ s.e512.life = l) :=
  ⟨⟨empty_inv _ (by decide) _ _, empty_inv _ (by decide) _ .fresh, rfl⟩,
    empty_inv _ (by decide) _ .fresh, empty_inv _ (by decide) _ _, rfl⟩

theorem witness_FourStepsEqualShortForm :
    (eng256 iv256 (pattern 63) 63 .accepting).buf.length < sha256.blockBytes := by decide

/-- Three bytes in one INGEST and in two, in unit 0 and in unit 1. -/
theorem witness_ChunkingInvariance :
    (let s := storing State.reset 0x1000 [0x61, 0x62, 0x63]
     let s1 := after (.ingest256 0x1000 1) s
     let s2 := after (.ingest256 0x1001 2) s1
     let t := after (.ingest256 0x1000 3) s
     s.e256.buf.length < 64 ∧
      memRead s.mem 0x1000 3 = memRead s.mem 0x1000 1 ++ memRead s.mem 0x1001 2 ∧
      s1.e256.life = .accepting ∧ s2.e256.life = .accepting ∧ t.e256.life = .accepting) ∧
    (let s := storing State.reset 0x1000 [0x61, 0x62, 0x63]
     let s1 := after (.ingest512 0x1000 1) s
     let s2 := after (.ingest512 0x1001 2) s1
     let t := after (.ingest512 0x1000 3) s
     s.e512.buf.length < 128 ∧
      memRead s.mem 0x1000 3 = memRead s.mem 0x1000 1 ++ memRead s.mem 0x1001 2 ∧
      s1.e512.life = .accepting ∧ s2.e512.life = .accepting ∧ t.e512.life = .accepting) := by
  decide +kernel

/-- A carry out of the low half, and the largest sum. -/
theorem witness_WideCounterCarries :
    (2 ^ 64 - 1 : Nat) < 2 ^ 64 ∧ (1#128).toNat + (2 ^ 64 - 1) ≤ 2 ^ 125 - 1 ∧
    (BitVec.ofNat 128 (2 ^ 125 - 2 ^ 64)).toNat + (2 ^ 64 - 1) ≤ 2 ^ 125 - 1 := by decide

/-- 0, 55, 56 and 63 buffered bytes, with the largest count. -/
theorem witness_Finalize256Completes :
    State.reset.e256.life = .fresh ∧
    ∀ n ∈ [0, 55, 56, 63],
      let s := with256 (eng256 iv256 (pattern n) (2 ^ 61 - 1) .accepting)
      s.e256.life = .accepting ∧ s.e256.buf.length < 64 ∧ s.e256.count.toNat ≤ 2 ^ 61 - 1 := by
  decide +kernel

theorem witness_Finalize512Completes :
    State.reset.e512.life = .fresh ∧
    ∀ n ∈ [0, 111, 112, 127],
      let s := with512 (eng512 iv512 (pattern n) (2 ^ 125 - 1) .accepting)
      s.e512.life = .accepting ∧ s.e512.buf.length < 128 ∧ s.e512.count.toNat ≤ 2 ^ 125 - 1 := by
  decide +kernel

/-- Both sides of each boundary, and an index in the zeros of each. -/
theorem witness_PaddingShape :
    ((pattern 54).length < 64 ∧ (pattern 54).length < 55 ∧
      55 < (pad sha256 (pattern 54) (2 ^ 61 - 1)).length - 8 ∧ (2 ^ 61 - 1 : Nat) ≤ 2 ^ 61 - 1) ∧
    ((pattern 63).length < 64 ∧ (pattern 63).length < 119 ∧
      119 < (pad sha256 (pattern 63) (2 ^ 61 - 1)).length - 8) ∧
    ((pattern 127).length < 128 ∧ (pattern 127).length < 239 ∧
      239 < (pad sha512t (pattern 127) (2 ^ 125 - 1)).length - 16 ∧
      (2 ^ 125 - 1 : Nat) ≤ 2 ^ 125 - 1) := by decide +kernel

theorem witness_WideLengthField : (2 ^ 125 - 1 : Nat) ≤ 2 ^ 125 - 1 := le_rfl

/-- Chunks of 120 bytes in three pieces (P2), one of them empty. -/
theorem witness_WholeHash :
    (∀ c ∈ [(0x2000, 50), (0x3001, 0), (2 ^ 64 - 70, 70)],
      Readable State.reset.params.holes c.1 c.2) ∧
    ([(0x2000, 50), (0x3001, 0), (2 ^ 64 - 70, 70)].flatMap fun c =>
      memRead State.reset.mem c.1 c.2).length ≤ 2 ^ 61 - 1 := by
  refine ⟨fun c hc => (readable_iff _ _ _).mp ?_, by decide +kernel⟩
  simp only [List.mem_cons, List.not_mem_nil, or_false] at hc
  rcases hc with rfl | rfl | rfl <;> decide +kernel

theorem witness_CompressByRounds :
    (pattern 64).length = 64 ∧ (pattern 128).length = 128 := by decide +kernel

/-- A word at the very top of the address space, and one that ends at a hole. -/
theorem witness_LoadwCompletes :
    ((2 ^ 64 - 8) + 1 * 4 + 4 ≤ 2 ^ 64 ∧ ∀ x, (2 ^ 64 - 8) + 1 * 4 ≤ x →
      x < (2 ^ 64 - 8) + 1 * 4 + 4 → memValid [] x = true) ∧
    (0xeff0 + 1 * 8 + 8 ≤ 2 ^ 64 ∧ ∀ x, 0xeff0 + 1 * 8 ≤ x → x < 0xeff0 + 1 * 8 + 8 →
      memValid holed.params.holes x = true) := by
  refine ⟨⟨by decide, fun x _ _ => rfl⟩, by decide, fun x h1 h2 => ?_⟩
  show (!(decide (0xF000 ≤ x) && decide (x < 0xF000 + 0x1000)) && true) = true
  have : ¬0xF000 ≤ x := by omega
  simp [this]

/-- Past `2^64` by one byte, by an index that would wrap, and one byte inside a hole. -/
theorem witness_LoadwCompletes_refused :
    2 ^ 64 < 0xfffffffffffffffd + 0 * 4 + 4 ∧ 2 ^ 64 < 0 + 0x4000000000000000 * 4 + 4 ∧
    2 ^ 64 < 8 + 0x1fffffffffffffff * 8 + 8 ∧
    (∃ x, 0xeffd + 0 * 4 ≤ x ∧ x < 0xeffd + 0 * 4 + 4 ∧ memValid holed.params.holes x = false) ∧
    ∃ x, 0xeff9 + 0 * 8 ≤ x ∧ x < 0xeff9 + 0 * 8 + 8 ∧ memValid holed.params.holes x = false :=
  ⟨by decide, by decide, by decide, ⟨0xf000, by decide +kernel⟩, 0xf000, by decide +kernel⟩

/-- The ends of LENC's range, and another encoding of the same number. -/
theorem witness_LencRenc :
    (2 ^ 64 - 1 : Nat) < 2 ^ 64 ∧ (0 : Nat) < 2 ^ 64 ∧
    1 ≤ ([0, 0, 1] : List Byte).length ∧ be [0, 0, 1] = 1 := by decide

theorem witness_LengthDecodersInvert : 256 ^ 255 - 1 < 256 ^ 255 := by decide +kernel

theorem witness_NextdataCompletes :
    State.reset.tup.life = .fresh ∧ (withTup .accepting).tup.life = .accepting ∧
    Readable State.reset.params.holes (2 ^ 64 - 65) 65 ∧ Readable holed.params.holes 0xf000 0 :=
  ⟨rfl, rfl, readable_examples.1, readable_examples.2.2.1⟩

theorem witness_NextdataCompletes_refused :
    (withTup .faulted).tup.life = .faulted ∧ (withTup .finalized).tup.life = .finalized ∧
    State.reset.tup.life = .fresh ∧ ¬Readable State.reset.params.holes (2 ^ 64 - 65) 66 ∧
    holed.tup.life = .fresh ∧ ¬Readable holed.params.holes 0xefc0 65 :=
  ⟨rfl, rfl, rfl, not_readable_examples.1, rfl, not_readable_examples.2.1⟩

theorem witness_FinalizeTupCompletes :
    State.reset.tup.life = .fresh ∧ (withTup .accepting).tup.life = .accepting := by decide

/-- The tuple of P5, an empty element and an element that ends at `2^64`. -/
theorem witness_TupleStreamOfCommands :
    ∀ e ∈ [(0x2000, 2), (0x2005, 0), (2 ^ 64 - 3, 3)], Readable State.reset.params.holes e.1 e.2 := by
  refine fun e he => (readable_iff _ _ _).mp ?_
  simp only [List.mem_cons, List.not_mem_nil, or_false] at he
  rcases he with rfl | rfl | rfl <;> decide +kernel

/-- Equal streams of equal tuples; the streams of V123 and V124 differ. -/
theorem witness_TupleStreamInjective :
    (∀ e ∈ ([[0x61, 0x62], [0x63]] : List (List Byte)), e.length < 2 ^ 64) ∧
    (2 ^ 61 - 1 : Nat) < 2 ^ 61 ∧
    tupleStream [[0x61, 0x62], [0x63]] 32 = tupleStream [[0x61, 0x62], [0x63]] 32 ∧
    tupleStream [[0x61, 0x62], [0x63]] 32 ≠ tupleStream [[0x61], [0x62, 0x63]] 32 := by
  decide +kernel

/-- Every amount from 0 to `w - 1`, the ends shown. -/
theorem witness_RotationLaw : 0 < 32 ∧ 31 < 32 ∧ 63 < 64 := by decide

end Sys2Proof.Tests
end

/-!
PROOFS. The statements of spec/00_scope.md: right rotation (R20), the wide counter (R21) and the invariant of
reachable states (R21, R35, R37, R39).
-/

/-! ### Right rotation (R20) -/

namespace Sys2Proof.Machine

/-- The two summands of R20 share no bit, so their sum is the word that joins them. -/
theorem rotr_sum_eq_or {w n : Nat} (x : BitVec w) (hn : n ≤ w) :
    x.toNat / 2 ^ n + x.toNat % 2 ^ n * 2 ^ (w - n) =
      x.toNat >>> n ||| x.toNat <<< (w - n) % 2 ^ w := by
  have hw : 2 ^ w = 2 ^ n * 2 ^ (w - n) := by rw [← pow_add, Nat.add_sub_cancel' hn]
  have hhigh : x.toNat <<< (w - n) % 2 ^ w = x.toNat % 2 ^ n * 2 ^ (w - n) := by
    rw [Nat.shiftLeft_eq, hw, Nat.mul_mod_mul_right]
  have hlow : x.toNat / 2 ^ n < 2 ^ (w - n) := by
    rw [Nat.div_lt_iff_lt_mul (by positivity), Nat.mul_comm, ← hw]
    exact x.isLt
  rw [hhigh, Nat.shiftRight_eq_div_pow, Nat.lor_comm, Nat.mul_comm,
    ← Nat.two_pow_add_eq_or_of_lt hlow, Nat.add_comm]

/-- R20's formula is the library's rotation, for the amounts R20 admits. -/
theorem rotr_eq_rotateRight {w n : Nat} (x : BitVec w) (hn : n < w) :
    rotr x n = x.rotateRight n := by
  apply BitVec.eq_of_toNat_eq
  rw [BitVec.toNat_rotateRight, Nat.mod_eq_of_lt hn, ← rotr_sum_eq_or x hn.le, rotr,
    BitVec.toNat_ofNat, Nat.mod_eq_of_lt]
  rw [rotr_sum_eq_or x hn.le]
  refine Nat.or_lt_two_pow ?_ (Nat.mod_lt _ (by positivity))
  exact (Nat.shiftRight_le _ _).trans_lt x.isLt

@[simp] theorem rotr_zero {w : Nat} (x : BitVec w) : rotr x 0 = x := by
  simp [rotr, Nat.mod_one]

/-- Bit `j` of a rotated word is the bit `n` places above, counted round the word. -/
theorem getLsbD_rotr {w n j : Nat} (x : BitVec w) (hn : n < w) (hj : j < w) :
    (rotr x n).getLsbD j = x.getLsbD ((j + n) % w) := by
  rw [rotr_eq_rotateRight x hn, BitVec.getLsbD_rotateRight, Nat.mod_eq_of_lt hn]
  by_cases hlow : j < w - n
  · have hstay : (j + n) % w = n + j := by rw [Nat.mod_eq_of_lt (by omega), Nat.add_comm]
    simp [hlow, hstay]
  · have hwrap : (j + n) % w = j - (w - n) := by
      rw [Nat.mod_eq_sub_mod (by omega), Nat.mod_eq_of_lt (by omega)]
      omega
    simp [hlow, hwrap, hj]

/-- Settles O53: the formula is the definition, and its bits are those of the library's rotation. -/
theorem rotationLaw : Obligations.RotationLaw := fun _ x _ hn =>
  ⟨BitVec.toNat_ofNat _ _, rotr_zero x, fun _ hj => getLsbD_rotr x hn hj⟩

/-! ### The 128-bit counter in two halves (R21, R124) -/

theorem low_half_toNat (x : BitVec 128) : (x.extractLsb' 0 64).toNat = x.toNat % 2 ^ 64 := by
  simp [BitVec.extractLsb'_toNat]

theorem high_half_toNat (x : BitVec 128) : (x.extractLsb' 64 64).toNat = x.toNat / 2 ^ 64 := by
  have := x.isLt
  rw [BitVec.extractLsb'_toNat, Nat.shiftRight_eq_div_pow]
  omega

/-- Settles O35: within MAXCOUNT the 128-bit sum does not wrap, so its halves are quotient and remainder of
the sum of numbers. -/
theorem wideCounterCarries : Obligations.WideCounterCarries := by
  intro count l _ hfit
  have hsum : (addCount count l).toNat = count.toNat + l := addCount_toNat (by omega)
  simp only [low_half_toNat, high_half_toNat, hsum]
  omega

/-! ### The invariant of one engine -/

section Engine
variable {w c : Nat} {F : Family w} {iv : HashState w} {e : Engine w c}

theorem Engine.initial_inv (hB : 0 < F.blockBytes) : (Engine.initial c iv).Inv F iv where
  bufShort := hB
  countFits := by simp [Engine.initial]
  bufIsTail _ := by simp [Engine.initial]
  finalizedEmpty _ := rfl
  freshInitial _ := rfl

/-- A fault changes `LIFE` alone (R238), and a Faulted engine owes only the two bounds. -/
theorem Engine.Inv.faulted (h : e.Inv F iv) : { e with life := .faulted }.Inv F iv where
  bufShort := h.bufShort
  countFits := h.countFits
  bufIsTail hl := by simp at hl
  finalizedEmpty hl := by simp at hl
  freshInitial hl := by simp at hl

/-- FINALIZE discards the buffer and keeps `COUNT` (R145, R146). -/
theorem Engine.Inv.finish (h : e.Inv F iv) :
    { Machine.finish F e with life := .finalized }.Inv F iv where
  bufShort := Nat.zero_lt_of_lt h.bufShort
  countFits := h.countFits
  bufIsTail hl := by simp at hl
  finalizedEmpty _ := rfl
  freshInitial hl := by simp at hl

/-- Whole blocks leave the buffer, and the tail is what is left over. -/
theorem consumeBlocks_buf_length (e : Engine w c) (rest : List Byte) :
    (consumeBlocks F e rest).buf.length = rest.length % F.blockBytes := by
  simp only [consumeBlocks, List.length_drop]
  rw [Nat.mod_eq_sub_div_mul]

/-- The four steps of R123 keep as many bytes as are left of the buffer and the input after whole blocks. -/
theorem takeInput_buf_length (h : e.buf.length < F.blockBytes) (data : List Byte) :
    (takeInput F e data).buf.length = (e.buf.length + data.length) % F.blockBytes := by
  unfold takeInput
  split
  · simp only [List.length_append, List.length_take]
    split
    · rw [List.length_append, List.length_take, Nat.mod_eq_of_lt (by omega)]
      omega
    · have hk : min (F.blockBytes - e.buf.length) data.length = F.blockBytes - e.buf.length := by
        omega
      rw [consumeBlocks_buf_length, List.length_drop, hk,
        Nat.mod_eq_sub_mod (a := e.buf.length + data.length) (by omega)]
      congr 1
      omega
  · rw [consumeBlocks_buf_length, show e.buf.length = 0 by omega, Nat.zero_add]

/-- An INGEST that passes the check of R128 keeps `BUFLEN = COUNT mod B` (R37). -/
theorem Engine.Inv.ingest (h : e.Inv F iv) (hlife : e.life.isOpen) {data : List Byte}
    (hfit : e.count.toNat + data.length ≤ F.maxCount) (hmax : F.maxCount < 2 ^ c) :
    { Machine.ingest F e data with life := .accepting }.Inv F iv := by
  have hcount : (addCount e.count data.length).toNat = e.count.toNat + data.length :=
    addCount_toNat (by omega)
  have hbuf : (takeInput F e data).buf.length =
      (e.count.toNat + data.length) % F.blockBytes := by
    rw [takeInput_buf_length h.bufShort, h.bufIsTail hlife, Nat.mod_add_mod]
  exact {
    bufShort := hbuf ▸ Nat.mod_lt _ (Nat.zero_lt_of_lt h.bufShort)
    countFits := hcount ▸ hfit
    bufIsTail := fun _ => hbuf.trans (by rw [ingest_count, hcount])
    finalizedEmpty := fun hl => by simp at hl
    freshInitial := fun hl => by simp at hl }

end Engine

/-! ### The invariant of the whole state -/

section State
variable {s t : State}

theorem State.Inv.answer (h : s.Inv) (r : Response) : (s.answer r).Inv := ⟨h.e256, h.e512, h.mem⟩

theorem State.Inv.emit (h : s.Inv) (ev : XofEvent) : (s.emit ev).Inv := ⟨h.e256, h.e512, h.mem⟩

theorem State.Inv.take (h : s.Inv) : s.take.Inv := ⟨h.e256, h.e512, h.mem⟩

theorem State.Inv.setLife_tup (h : s.Inv) (l : Life) : (s.setLife .tup l).Inv :=
  ⟨h.e256, h.e512, h.mem⟩

theorem State.Inv.setLife_faulted (h : s.Inv) (u : UnitId) : (s.setLife u .faulted).Inv := by
  cases u with
  | e256 => exact ⟨h.e256.faulted, h.e512, h.mem⟩
  | e512 => exact ⟨h.e256, h.e512.faulted, h.mem⟩
  | tup => exact h.setLife_tup .faulted

/-- Taking a fault keeps the invariant: it marks the addressed unit or changes no unit (R238). -/
theorem State.Inv.raise (h : s.Inv) (u : Option UnitId) (f : FaultCode) : (s.raise u f).Inv := by
  refine State.Inv.answer ?_ _
  cases u with
  | none => exact h
  | some u =>
    rw [markFaulted_some]
    split
    · exact h.setLife_faulted u
    · exact h

theorem State.Inv.resetUnit (h : s.Inv) (u : UnitId) : (s.resetUnit u).Inv := by
  cases u with
  | e256 => exact ⟨Engine.initial_inv (by decide), h.e512, h.mem⟩
  | e512 => exact ⟨h.e256, Engine.initial_inv (by decide), h.mem⟩
  | tup => exact ⟨h.e256, h.e512, h.mem⟩

theorem State.Inv.ingest256 (h : s.Inv) (hlife : s.e256.life.isOpen) {data : List Byte}
    (hfit : countFits sha256.maxCount s.e256.count data.length = true) :
    { s with e256 := { ingest sha256 s.e256 data with life := .accepting } }.Inv :=
  ⟨h.e256.ingest hlife ((countFits_iff _ _ _).mp hfit) (by simp), h.e512, h.mem⟩

theorem State.Inv.ingest512 (h : s.Inv) (hlife : s.e512.life.isOpen) {data : List Byte}
    (hfit : countFits sha512t.maxCount s.e512.count data.length = true) :
    { s with e512 := { ingest sha512t s.e512 data with life := .accepting } }.Inv :=
  ⟨h.e256, h.e512.ingest hlife ((countFits_iff _ _ _).mp hfit) (by simp), h.mem⟩

theorem State.Inv.finish256 (h : s.Inv) :
    { s with e256 := { finish sha256 s.e256 with life := .finalized } }.Inv :=
  ⟨h.e256.finish, h.e512, h.mem⟩

theorem State.Inv.finish512 (h : s.Inv) :
    { s with e512 := { finish sha512t s.e512 with life := .finalized } }.Inv :=
  ⟨h.e256, h.e512.finish, h.mem⟩

theorem State.Inv.hostStore (h : s.Inv) (addr : Nat) (bytes : List Byte) :
    (hostStore s addr bytes).Inv := ⟨h.e256, h.e512, store_wf h.mem addr bytes⟩

theorem State.Inv.pulseResetPin (h : s.Inv) : (pulseResetPin s).Inv :=
  ((h.resetUnit .e256).resetUnit .e512).resetUnit .tup

/-- A command that ran keeps the invariant. -/
theorem ran_keeps_inv {i : Instr} (hran : Ran i s t) (h : s.Inv) : t.Inv := by
  cases hran with
  | reset256 => exact (h.resetUnit .e256).answer _
  | reset512 => exact (h.resetUnit .e512).answer _
  | resetTup => exact ((h.emit _).resetUnit .tup).answer _
  | ingest256 _ a l hlife _ hcount =>
    exact (h.ingest256 hlife (by rwa [memRead_length])).answer _
  | ingest512 _ a l hlife _ hcount =>
    exact (h.ingest512 hlife (by rwa [memRead_length])).answer _
  | finalize256 => exact h.finish256.answer _
  | finalize512 => exact h.finish512.answer _
  | finalizeTup => exact (((h.emit _).emit _).setLife_tup _).answer _
  | nextdata => exact (((h.emit _).emit _).setLife_tup _).answer _
  | digestTup => exact (h.emit _).answer _
  | digest256 => exact h.answer _
  | digest512 => exact h.answer _
  | lenc => exact h.answer _
  | renc => exact h.answer _
  | loadw32 => exact h.answer _
  | loadw64 => exact h.answer _

theorem exec_keeps_inv {i : Instr} (hexec : exec i s = .next t) (h : s.Inv) : t.Inv := by
  rcases exec_cases hexec with hran | ⟨f, -, rfl⟩
  · exact ran_keeps_inv hran h
  · exact h.raise _ f

end State

/-- Settles O11: a command, an illegal descriptor, a host store, the reset pin and an idle step each keep the
invariant. -/
theorem stepKeepsInvariant : Obligations.StepKeepsInvariant := by
  intro s t h hstep
  rcases step_cases hstep with ⟨-, rfl⟩ | ⟨d, rest, i, -, -, hexec⟩ | ⟨d, rest, e, -, -, rfl⟩ |
    ⟨a, bytes, rest, -, rfl⟩ | ⟨rest, -, rfl⟩
  · exact h
  · exact exec_keeps_inv hexec h.take
  · exact h.take.raise none .illegalCmd
  · exact h.take.hostStore a bytes
  · exact h.take.pulseResetPin

end Sys2Proof.Machine

/-!
PROOFS. The statements of spec/10_state.md: Fresh and Accepting differ in name only (R39), the event log (R45),
the inputs no command changes (R43, R67, R72), the arrows of the lifecycle table (R100) and the power-on state
(R48, R260).
-/

namespace Sys2Proof.Machine

/-! ### Fresh and Accepting differ in name only (R39)

Merging the two is a projection of the state. Running a command on the projected state gives the same state up to
the projection (`exec_merge`), so two states with one projection stay so. -/

section Merge
variable (s : State)

@[simp] theorem merge_e256 : s.merge.e256 = { s.e256 with life := s.e256.life.merge } := rfl
@[simp] theorem merge_e512 : s.merge.e512 = { s.e512 with life := s.e512.life.merge } := rfl
@[simp] theorem merge_mem : s.merge.mem = s.mem := rfl
@[simp] theorem merge_params : s.merge.params = s.params := rfl
@[simp] theorem merge_xlog : s.merge.xlog = s.xlog := rfl
@[simp] theorem merge_life (u : UnitId) : s.merge.life u = (s.life u).merge := by cases u <;> rfl

@[simp] theorem answer_merge (r : Response) : (s.answer r).merge = s.merge.answer r := rfl
@[simp] theorem emit_merge (e : XofEvent) : (s.emit e).merge = s.merge.emit e := rfl
@[simp] theorem setLife_merge (u : UnitId) (l : Life) :
    (s.setLife u l).merge = s.merge.setLife u l.merge := by cases u <;> rfl

@[simp] theorem Life.merge_merge (l : Life) : l.merge.merge = l.merge := by cases l <;> rfl

@[simp] theorem merge_merge : s.merge.merge = s.merge := by simp [State.merge]

/-- RESET overwrites the `LIFE` that the projection changes. -/
theorem resetUnit_merge (u : UnitId) : (s.merge.resetUnit u).merge = (s.resetUnit u).merge := by
  cases u <;> simp [State.merge, State.resetUnit]

/-- A fault depends on no `LIFE`, and Faulted is neither Fresh nor Accepting. -/
@[simp] theorem raise_merge (u : Option UnitId) (f : FaultCode) :
    (s.raise u f).merge = s.merge.raise u f := by
  cases u with
  | none => rfl
  | some u =>
    rw [State.raise, State.raise, answer_merge, markFaulted_some, markFaulted_some]
    split
    · rw [setLife_merge, Life.merge]
    · rfl

/-- R100's table has one column for Fresh and Accepting, up to their names. -/
theorem lifecycle_merge (r : LifeRow) (l : Life) :
    (lifecycle r l.merge).map Life.merge = (lifecycle r l).map Life.merge := by
  cases r <;> cases l <;> rfl

/-- The lifecycle check does not tell Fresh from Accepting. -/
theorem withLife_merge (u : UnitId) (r : LifeRow) {go go' : Life → State}
    (hgo : ∀ l l', l'.merge = l.merge → (go' l').merge = (go l).merge) :
    (withLife s.merge u r go').merge = (withLife s u r go).merge := by
  have htable := lifecycle_merge r (s.life u)
  rw [← merge_life] at htable
  rcases withLife_cases s u r go with ⟨f, hf, h⟩ | ⟨l, hl, h⟩ <;>
    rcases withLife_cases s.merge u r go' with ⟨f', hf', h'⟩ | ⟨l', hl', h'⟩ <;>
    rw [h, h']
  · rw [hf, hf'] at htable
    obtain rfl : f' = f := by simpa [Except.map] using htable
    simp
  · rw [hf, hl'] at htable
    simp [Except.map] at htable
  · rw [hl, hf'] at htable
    simp [Except.map] at htable
  · rw [hl, hl'] at htable
    exact hgo l l' (by simpa [Except.map] using htable)

/-- An operand check does not read `LIFE`. -/
theorem require_merge (u : Option UnitId) (f : FaultCode) (check : Bool) {go go' : State}
    (hgo : go'.merge = go.merge) :
    (require s.merge u f check go').merge = (require s u f check go).merge := by
  cases check
  · simp
  · exact hgo

/-- The data path of INGEST does not read `LIFE` (R123). -/
@[simp] theorem ingest_with_life {w c : Nat} (F : Family w) (e : Engine w c) (l : Life) (data : List Byte) :
    ingest F { e with life := l } data = { ingest F e data with life := l } := by
  simp only [ingest, takeInput]
  split
  · split <;> rfl
  · rfl

/-- The data path of FINALIZE does not read `LIFE` (R143). -/
@[simp] theorem finish_with_life {w c : Nat} (F : Family w) (e : Engine w c) (l : Life) :
    finish F { e with life := l } = { finish F e with life := l } := rfl

/-- A command run on the projected state leaves the projection of what it leaves. -/
theorem exec_merge {i : Instr} {t : State} (h : exec i s = .next t) :
    ∃ t', exec i s.merge = .next t' ∧ t'.merge = t.merge := by
  cases i <;> cases h <;> refine ⟨_, rfl, ?_⟩
  case reset256 => exact congrArg (State.answer · _) (resetUnit_merge s .e256)
  case reset512 => exact congrArg (State.answer · _) (resetUnit_merge s .e512)
  case resetTup => exact congrArg (State.answer · _) (resetUnit_merge (s.emit .xReset) .tup)
  case ingest256 a l =>
    refine withLife_merge s _ _ fun m m' hm => require_merge s _ _ _ (require_merge s _ _ _ ?_)
    simp [State.merge, hm]
  case ingest512 a l =>
    refine withLife_merge s _ _ fun m m' hm => require_merge s _ _ _ (require_merge s _ _ _ ?_)
    simp [State.merge, hm]
  case finalize256 =>
    refine withLife_merge s _ _ fun m m' hm => ?_
    simp [State.merge, hm]
  case finalize512 =>
    refine withLife_merge s _ _ fun m m' hm => ?_
    simp [State.merge, hm]
  case finalizeTup =>
    refine withLife_merge s _ _ fun m m' hm => ?_
    simp [emitClosing, hm]
  case digest256 => exact withLife_merge s _ _ fun _ _ _ => by simp
  case digest512 => exact withLife_merge s _ _ fun _ _ _ => by simp
  case digestTup => exact withLife_merge s _ _ fun _ _ _ => by simp
  case nextdata a l =>
    refine withLife_merge s _ _ fun m m' hm => require_merge s _ _ _ ?_
    simp [emitElement, hm]
  case lenc n => simp
  case renc n => simp
  case loadw32 a k => exact require_merge s _ _ _ (by simp)
  case loadw64 a k => exact require_merge s _ _ _ (by simp)

end Merge

/-- Settles O21: each command is a function of the projected state, up to the projection. -/
theorem freshAcceptingAlike : Obligations.FreshAcceptingAlike := by
  intro i s s' t t' hmerge hexec hexec'
  obtain ⟨u, hu, hut⟩ := exec_merge s hexec
  obtain ⟨u', hu', hut'⟩ := exec_merge s' hexec'
  have huu : u = u' := by
    rw [hmerge, hu'] at hu
    exact (Host.Outcome.next.inj hu).symm
  rw [← hut, ← hut', huu]

/-! ### The event log (R45) -/

/-- A completed command appends the events of its rule, and only unit 2's commands have any. -/
theorem completed_xlog_prefix (i : Instr) (s : State) : s.xlog <+: (completed i s).xlog := by
  cases i
  case resetTup | finalizeTup | digestTup | nextdata => exact List.prefix_append _ _
  all_goals exact List.prefix_rfl

theorem exec_xlog_prefix {i : Instr} {s t : State} (h : exec i s = .next t) : s.xlog <+: t.xlog := by
  rcases exec_cases h with hran | ⟨f, -, rfl⟩
  · exact ran_completed hran ▸ completed_xlog_prefix i s
  · rw [raise_xlog]

theorem step_xlog_prefix {s t : State} (h : step s = .next t) : s.xlog <+: t.xlog := by
  rcases step_cases h with ⟨-, rfl⟩ | ⟨d, rest, i, -, -, hexec⟩ | ⟨d, rest, e, -, -, rfl⟩ |
    ⟨a, bytes, rest, -, rfl⟩ | ⟨rest, -, rfl⟩
  · exact List.prefix_rfl
  · exact take_xlog s ▸ exec_xlog_prefix hexec
  · exact List.prefix_rfl
  · exact List.prefix_rfl
  · exact List.prefix_rfl

/-- Settles O13: a command appends its events or raises a fault, and no other step touches the log. -/
theorem xlogAppendOnly : Obligations.XlogAppendOnly := by
  refine ⟨fun s t h => ?_, fun i s t h => ?_, fun s t h => ?_⟩
  · obtain ⟨events, he⟩ := step_xlog_prefix h
    exact ⟨events, he.symm⟩
  · obtain ⟨events, he⟩ := exec_xlog_prefix h
    exact ⟨events, he.symm⟩
  · cases h
    rfl

/-! ### What no command changes (R43, R67, R72) -/

theorem exec_inputs {i : Instr} {s t : State} (h : exec i s = .next t) :
    t.mem = s.mem ∧ t.params = s.params ∧ t.pending = s.pending := by
  rcases exec_cases h with hran | ⟨f, -, rfl⟩
  · exact ran_inputs hran
  · exact ⟨raise_mem .., raise_params .., raise_pending ..⟩

/-- Settles O14: neither an effect nor a fault writes an input; the bytes read are those of the same memory. -/
theorem commandsLeaveInputsAlone : Obligations.CommandsLeaveInputsAlone := by
  intro i s t h
  obtain ⟨hmem, hparams, hpending⟩ := exec_inputs h
  exact ⟨fun x => by rw [hmem], hmem, hparams, hpending⟩

/-! ### The arrows of the lifecycle table (R100, R238) -/

/-- `LIFE` may go from `l` to `m`: an arrow of R100's table, or none taken. -/
def Life.Arrow (l m : Life) : Prop :=
  m = l ∨ m = .fresh ∨ (m = .accepting ∧ l = .fresh) ∨
    (m = .finalized ∧ (l = .fresh ∨ l = .accepting)) ∨ (m = .faulted ∧ l ≠ .faulted)

theorem Life.Arrow.to_faulted (l : Life) : l.Arrow .faulted := by cases l <;> simp [Life.Arrow]

theorem Life.Arrow.to_accepting {l : Life} (h : l.isOpen) : l.Arrow .accepting := by
  rcases h with rfl | rfl <;> simp [Life.Arrow]

/-- A fault moves the addressed unit into Faulted, or moves nothing. -/
theorem raise_arrow (s : State) (v : Option UnitId) (f : FaultCode) (u : UnitId) :
    (s.life u).Arrow ((s.raise v f).life u) := by
  rw [raise_life]
  split
  · exact .to_faulted _
  · exact .inl rfl

theorem exec_arrow {i : Instr} {s t : State} (h : exec i s = .next t) (u : UnitId) :
    (s.life u).Arrow (t.life u) := by
  rcases exec_cases h with hran | ⟨f, -, rfl⟩
  · rcases ran_life hran u with hl | ⟨hl, -⟩ | ⟨hl, hopen⟩ | ⟨hl, hopen⟩ <;> rw [hl]
    · exact .inl rfl
    · exact .inr (.inl rfl)
    · exact .to_accepting hopen
    · exact .inr (.inr (.inr (.inl ⟨rfl, hopen⟩)))
  · exact raise_arrow s _ f u

@[simp] theorem pulseResetPin_life (s : State) (u : UnitId) : (pulseResetPin s).life u = .fresh := by
  cases u <;> rfl

@[simp] theorem hostStore_life (s : State) (a : Nat) (bytes : List Byte) (u : UnitId) :
    (hostStore s a bytes).life u = s.life u := by
  cases u <;> rfl

/-- Settles O20: a command takes one arrow, the reset pin leads to Fresh, and no other step moves `LIFE`. -/
theorem lifecycleArrowsOnly : Obligations.LifecycleArrowsOnly := by
  intro s t u h
  change (s.life u).Arrow (t.life u)
  rcases step_cases h with ⟨-, rfl⟩ | ⟨d, rest, i, -, -, hexec⟩ | ⟨d, rest, e, -, -, rfl⟩ |
    ⟨a, bytes, rest, -, rfl⟩ | ⟨rest, -, rfl⟩
  · exact .inl rfl
  · exact take_life s u ▸ exec_arrow hexec u
  · exact take_life s u ▸ raise_arrow s.take none .illegalCmd u
  · exact .inl (by simp)
  · exact .inr (.inl (by simp))

/-! ### The power-on state (R48, R260) -/

theorem powerOn_inv (p : Params) : (State.powerOn p).Inv where
  e256 := Engine.initial_inv (by decide)
  e512 := Engine.initial_inv (by decide)
  mem := ⟨List.Pairwise.nil, by simp [State.powerOn]⟩

/-- Settles O12: both engines are as construction leaves them, and memory lists no cell. -/
theorem powerOnMeetsInvariant : Obligations.PowerOnMeetsInvariant :=
  ⟨powerOn_inv, powerOn_inv defaultParams⟩

end Sys2Proof.Machine

/-!
PROOFS. The statements of spec/20_memory.md: the step that runs a decoded command (R68, R72, R96), the host's
store (R60, R73, R92), the bytes a command reads (R62, R69) and the unit it changes and depends on (R77, R242).
-/

namespace Sys2Proof.Machine

/-! ### Taking the next input from the port (R68, R72) -/

section Take
variable {s : State} {rest : List HostInput}

theorem take_of_pending {x : HostInput} (h : s.pending = x :: rest) :
    s.take = { s with pending := rest } := by
  simp [State.take, h]

theorem step_of_command {d : Descriptor} {i : Instr} (h : s.pending = .command d :: rest)
    (hd : decode d = .ok i) : step s = exec i { s with pending := rest } := by
  rw [← take_of_pending h]
  simp [step, h, hd]

theorem step_of_store {addr : Nat} {bytes : List Byte} (h : s.pending = .store addr bytes :: rest) :
    step s = .next (hostStore { s with pending := rest } addr bytes) := by
  rw [← take_of_pending h]
  simp [step, h]

end Take

/-- Settles O5: the decoder yields only operands that fit their fields, and the step takes the input. -/
theorem stepRunsDecodedCommand : Obligations.StepRunsDecodedCommand := fun _ _ _ _ hpending hdecode =>
  ⟨(decode_ok hdecode).2, step_of_command hpending hdecode⟩

/-! ### A store reads back (R60, R73, R92) -/

theorem memRead_succ (m : Memory) (a n : Nat) :
    memRead m a (n + 1) = Memory.read m a :: memRead m (a + 1) n := by
  rw [Nat.add_comm, memRead_append]
  rfl

/-- Stored bytes below `2^64` are read back: the later bytes of the store lie above the first. -/
theorem memRead_store_same {m : Memory} (hwf : Memory.wf m) {a : Nat} (bs : List Byte)
    (hend : a + bs.length ≤ 2 ^ 64) : memRead (Memory.store m a bs) a bs.length = bs := by
  induction bs generalizing m a with
  | nil => rfl
  | cons b bs ih =>
    rw [List.length_cons] at hend ⊢
    rw [memRead_succ, Memory.store, ih (storeByte_wf hwf a b) (by omega),
      read_store_other bs (by omega), read_storeByte_same hwf (by omega)]

/-- Settles O10: the memory after the step is the store's, by the laws of `Memory.store`. -/
theorem hostStoreReadBack : Obligations.HostStoreReadBack := by
  intro s addr bytes rest hwf hend hpending
  exact ⟨Memory.store s.mem addr bytes, step_of_store hpending, store_wf hwf addr bytes,
    memRead_store_same hwf bytes hend, fun _ hx => read_store_other bytes hx⟩

/-! ### Every command in one form: a verdict, then a fault or all the effects (R96, R238)

`exec_cases` says that a command runs or raises a fault. Two runs are compared below, so what decides between
the two is said here as a function: `verdict`, the first check of the prologue that fails. -/

/-- The fault the lifecycle table raises for a row in a lifecycle state, if it raises one (R100). -/
def lifeFault (r : LifeRow) (l : Life) : Option FaultCode :=
  match lifecycle r l with
  | .error f => some f
  | .ok _ => none

/-- The fault an operand check raises, if it fails (R96 step 5). -/
def checkFault (f : FaultCode) (check : Bool) : Option FaultCode := if check then none else some f

/-- The fault a command raises, if it raises one: the first of its checks that fails (R96, R237). -/
def verdict : Instr → State → Option FaultCode
  | .reset256, _ | .reset512, _ | .resetTup, _ | .lenc _, _ | .renc _, _ => none
  | .ingest256 a l, s =>
    (lifeFault .ingest s.e256.life).or <|
    (checkFault .addrRange (readable s.params.holes a l)).or <|
    checkFault .lenOverflow (countFits sha256.maxCount s.e256.count l)
  | .ingest512 a l, s =>
    (lifeFault .ingest s.e512.life).or <|
    (checkFault .addrRange (readable s.params.holes a l)).or <|
    checkFault .lenOverflow (countFits sha512t.maxCount s.e512.count l)
  | .nextdata a l, s =>
    (lifeFault .ingest s.tup.life).or (checkFault .addrRange (readable s.params.holes a l))
  | .finalize256, s => lifeFault .finalize s.e256.life
  | .finalize512, s => lifeFault .finalize s.e512.life
  | .finalizeTup, s => lifeFault .finalize s.tup.life
  | .digest256, s => lifeFault .digestHash s.e256.life
  | .digest512, s => lifeFault .digestHash s.e512.life
  | .digestTup, s => lifeFault .digestTup s.tup.life
  | .loadw32 a i, s => checkFault .addrRange (readable s.params.holes (loadAddress 4 a i) 4)
  | .loadw64 a i, s => checkFault .addrRange (readable s.params.holes (loadAddress 8 a i) 8)

/-- The state a verdict leads to: the fault raised on the unit, or `go`. -/
def State.conclude (s : State) (u : Option UnitId) (go : State) : Option FaultCode → State
  | some f => s.raise u f
  | none => go

section Conclude
variable (s : State) (u : Option UnitId) (go : State)

@[simp] theorem conclude_some (f : FaultCode) : s.conclude u go (some f) = s.raise u f := rfl
@[simp] theorem conclude_none : s.conclude u go none = go := rfl

/-- Checks in sequence: the second is looked at when the first passes. -/
theorem conclude_or (v v' : Option FaultCode) :
    s.conclude u go (v.or v') = s.conclude u (s.conclude u go v') v := by
  cases v <;> rfl

theorem require_eq_conclude (f : FaultCode) (check : Bool) :
    require s u f check go = s.conclude u go (checkFault f check) := by
  cases check <;> rfl

/-- The lifecycle check, where going on leads to one state whatever the next `LIFE`. -/
theorem withLife_eq_conclude (v : UnitId) (r : LifeRow) {k : Life → State}
    (hk : ∀ l, lifecycle r (s.life v) = .ok l → k l = go) :
    withLife s v r k = s.conclude (some v) go (lifeFault r (s.life v)) := by
  unfold lifeFault
  rcases withLife_cases s v r k with ⟨f, hf, h⟩ | ⟨l, hl, h⟩ <;> rw [h]
  · rw [hf, conclude_some]
  · rw [hl, conclude_none, hk l hl]

theorem withLife_ingest_eq_conclude (v : UnitId) (k : Life → State) :
    withLife s v .ingest k = s.conclude (some v) (k .accepting) (lifeFault .ingest (s.life v)) :=
  withLife_eq_conclude s _ v .ingest fun _ hl => by rw [(lifecycle_ingest_ok hl).2]

theorem withLife_finalize_eq_conclude (v : UnitId) (k : Life → State) :
    withLife s v .finalize k = s.conclude (some v) (k .finalized) (lifeFault .finalize (s.life v)) :=
  withLife_eq_conclude s _ v .finalize fun _ hl => by rw [(lifecycle_finalize_ok hl).2]

end Conclude

/-- A command raises the fault of its verdict on the unit it addresses, or has all its effects. -/
theorem exec_eq_conclude (i : Instr) (s : State) :
    exec i s = .next (s.conclude (addressedUnit i) (completed i s) (verdict i s)) := by
  cases i with
  | reset256 | reset512 | resetTup | lenc | renc => rfl
  | ingest256 a l =>
    rw [verdict, conclude_or, conclude_or, ← require_eq_conclude, ← require_eq_conclude]
    exact congrArg _ (withLife_ingest_eq_conclude s .e256 _)
  | ingest512 a l =>
    rw [verdict, conclude_or, conclude_or, ← require_eq_conclude, ← require_eq_conclude]
    exact congrArg _ (withLife_ingest_eq_conclude s .e512 _)
  | nextdata a l =>
    rw [verdict, conclude_or, ← require_eq_conclude]
    refine congrArg _ ((withLife_ingest_eq_conclude s .tup _).trans ?_)
    simp [completed, emitElement, State.emit, State.setLife, State.answer, State.life, addressedUnit]
  | finalize256 => exact congrArg _ (withLife_finalize_eq_conclude s .e256 _)
  | finalize512 => exact congrArg _ (withLife_finalize_eq_conclude s .e512 _)
  | finalizeTup =>
    refine congrArg _ ((withLife_finalize_eq_conclude s .tup _).trans ?_)
    simp [verdict, completed, emitClosing, State.emit, State.setLife, State.answer, State.life,
      addressedUnit]
  | digest256 => exact congrArg _ (withLife_eq_conclude s _ .e256 .digestHash fun _ _ => rfl)
  | digest512 => exact congrArg _ (withLife_eq_conclude s _ .e512 .digestHash fun _ _ => rfl)
  | digestTup => exact congrArg _ (withLife_eq_conclude s _ .tup .digestTup fun _ _ => rfl)
  | loadw32 a i => exact congrArg _ (require_eq_conclude s none _ .addrRange _)
  | loadw64 a i => exact congrArg _ (require_eq_conclude s none _ .addrRange _)

/-! ### A command reads only its range (R62, R69) -/

theorem memRead_congr {m m' : Memory} {a n : Nat}
    (h : ∀ x, a ≤ x → x < a + n → Memory.read m x = Memory.read m' x) :
    memRead m a n = memRead m' a n := by
  refine List.map_congr_left fun i hi => h (a + i) (by omega) ?_
  have := List.mem_range.mp hi
  omega

section WithMem
variable (s : State) (m : Memory)

theorem raise_with_mem (u : Option UnitId) (f : FaultCode) :
    { s with mem := m }.raise u f = { s.raise u f with mem := m } := by
  cases u with
  | none => rfl
  | some u =>
    rw [State.raise, State.raise, markFaulted_some, markFaulted_some]
    cases f.marks <;> cases u <;> rfl

/-- No check reads a byte of memory: `MEM_VALID` is a parameter (R12). -/
theorem verdict_with_mem (i : Instr) : verdict i { s with mem := m } = verdict i s := by
  cases i <;> rfl

/-- The effects read memory in the command's range alone. -/
theorem completed_with_mem {i : Instr}
    (h : memRead m (readRange i).1 (readRange i).2 = memRead s.mem (readRange i).1 (readRange i).2) :
    completed i { s with mem := m } = { completed i s with mem := m } := by
  cases i
  case ingest256 | ingest512 | nextdata | loadw32 | loadw64 =>
    simp only [readRange] at h
    simp only [completed, loadWord, h]
  all_goals rfl

end WithMem

/-- Settles O15: the verdict reads no memory, a fault none, and the effects the command's range. -/
theorem commandReadsOnlyItsRange : Obligations.CommandReadsOnlyItsRange := by
  intro i s t m hrange hexec
  rw [exec_eq_conclude] at hexec ⊢
  obtain rfl := Host.Outcome.next.inj hexec
  rw [verdict_with_mem, completed_with_mem s m (memRead_congr hrange)]
  cases verdict i s with
  | none => rfl
  | some f => exact congrArg _ (raise_with_mem s m _ f)

/-! ### A command changes only its unit (R77, R100, R242) -/

/-- Two states hold the same unit, with unit 2's log where it is unit 2; no unit asks for nothing. -/
def State.AgreeOn (s s' : State) : Option UnitId → Prop
  | none => True
  | some .e256 => s.e256 = s'.e256
  | some .e512 => s.e512 = s'.e512
  | some .tup => s.tup = s'.tup ∧ s.xlog = s'.xlog

/-- The effects leave every other unit alone. -/
theorem completed_frame {i : Instr} (s : State) {u : UnitId} (h : addressedUnit i ≠ some u) :
    (completed i s).AgreeOn s (some u) := by
  cases u with
  | e256 =>
    cases i
    case reset256 | ingest256 | finalize256 | digest256 => exact absurd rfl h
    all_goals rfl
  | e512 =>
    cases i
    case reset512 | ingest512 | finalize512 | digest512 => exact absurd rfl h
    all_goals rfl
  | tup =>
    cases i
    case resetTup | nextdata | finalizeTup | digestTup => exact absurd rfl h
    all_goals exact ⟨rfl, rfl⟩

/-- A fault leaves every unit but the one it is raised on alone (R238). -/
theorem raise_frame (s : State) {v : Option UnitId} (f : FaultCode) {u : UnitId} (h : v ≠ some u) :
    (s.raise v f).AgreeOn s (some u) := by
  cases v with
  | none => cases u <;> simp [State.AgreeOn]
  | some v =>
    rw [State.raise, markFaulted_some]
    cases f.marks <;> cases v <;> cases u <;> simp [State.AgreeOn] at h ⊢

theorem exec_frame {i : Instr} {s t : State} (hexec : exec i s = .next t) {u : UnitId}
    (h : addressedUnit i ≠ some u) : t.AgreeOn s (some u) := by
  rcases exec_cases hexec with hran | ⟨f, -, rfl⟩
  · exact ran_completed hran ▸ completed_frame s h
  · exact raise_frame s f h

/-- Settles O16: neither the effects nor a fault touch a unit the command does not address. -/
theorem commandChangesOnlyItsUnit : Obligations.CommandChangesOnlyItsUnit := fun _ _ _ hexec =>
  ⟨exec_frame hexec (u := .e256), exec_frame hexec (u := .e512), exec_frame hexec (u := .tup)⟩

/-! ### Each unit evolves on its own (R77, R242)

Two runs of one command are compared on two states that agree on the parameters, caller memory and the unit the
command addresses: they reach one verdict, and the fault or the effects then come out alike. -/

/-- Both states give one response more than before, the same one. -/
def AnswerAlike (s s' t t' : State) : Prop :=
  ∃ r, t.responses = s.responses ++ [r] ∧ t'.responses = s'.responses ++ [r]

section Alike
variable {i : Instr} {s s' t t' : State}

/-- The checks look at the parameters and the addressed unit alone. -/
theorem verdict_congr (hparams : s.params = s'.params) (hunit : s.AgreeOn s' (addressedUnit i)) :
    verdict i s = verdict i s' := by
  cases i
  case reset256 | reset512 | resetTup | lenc | renc => rfl
  case loadw32 | loadw64 => simp only [verdict, hparams]
  case ingest256 | finalize256 | digest256 =>
    have he : s.e256 = s'.e256 := hunit
    simp only [verdict, hparams, he]
  case ingest512 | finalize512 | digest512 =>
    have he : s.e512 = s'.e512 := hunit
    simp only [verdict, hparams, he]
  case nextdata | finalizeTup | digestTup =>
    obtain ⟨htup, -⟩ := hunit
    simp only [verdict, hparams, htup]

/-- The effects come from the addressed unit, caller memory and the parameters alone. -/
theorem completed_agree (hmem : s.mem = s'.mem) (hparams : s.params = s'.params)
    (hunit : s.AgreeOn s' (addressedUnit i)) :
    (completed i s).AgreeOn (completed i s') (addressedUnit i) ∧
      AnswerAlike s s' (completed i s) (completed i s') := by
  cases i
  case reset256 | ingest256 | finalize256 | digest256 =>
    have he : s.e256 = s'.e256 := hunit
    exact ⟨by simp only [State.AgreeOn, addressedUnit, completed, hmem, hparams, he], _, rfl,
      by simp only [completed, he]⟩
  case reset512 | ingest512 | finalize512 | digest512 =>
    have he : s.e512 = s'.e512 := hunit
    exact ⟨by simp only [State.AgreeOn, addressedUnit, completed, hmem, hparams, he], _, rfl,
      by simp only [completed, hparams, he]⟩
  case resetTup | nextdata | finalizeTup | digestTup =>
    obtain ⟨htup, hxlog⟩ := hunit
    exact ⟨by simp only [State.AgreeOn, addressedUnit, completed, hmem, hparams, htup, hxlog, and_self],
      _, rfl, by simp only [completed, hparams, hxlog]⟩
  case lenc | renc => exact ⟨trivial, _, rfl, rfl⟩
  case loadw32 | loadw64 => exact ⟨trivial, _, rfl, by simp only [completed, hmem]⟩

/-- A fault marks equal units alike and answers alike. -/
theorem raise_agree {u : Option UnitId} (hunit : s.AgreeOn s' u) (f : FaultCode) :
    (s.raise u f).AgreeOn (s'.raise u f) u ∧ AnswerAlike s s' (s.raise u f) (s'.raise u f) := by
  refine ⟨?_, _, raise_responses s u f, raise_responses s' u f⟩
  cases u with
  | none => trivial
  | some u =>
    rw [State.raise, State.raise, markFaulted_some, markFaulted_some]
    cases f.marks <;> cases u <;> simp_all [State.AgreeOn]

/-- One command on two states that agree on all it may look at. -/
theorem exec_agree (hmem : s.mem = s'.mem) (hparams : s.params = s'.params)
    (hunit : s.AgreeOn s' (addressedUnit i)) (hexec : exec i s = .next t)
    (hexec' : exec i s' = .next t') : t.AgreeOn t' (addressedUnit i) ∧ AnswerAlike s s' t t' := by
  rw [exec_eq_conclude] at hexec hexec'
  obtain rfl := Host.Outcome.next.inj hexec
  obtain rfl := Host.Outcome.next.inj hexec'
  rw [← verdict_congr hparams hunit]
  cases verdict i s with
  | none => exact completed_agree hmem hparams hunit
  | some f => exact raise_agree hunit f

end Alike

/-- Settles O17: two runs agree on the addressed unit and the response, for each unit and for none. -/
theorem unitEvolvesOnItsOwn : Obligations.UnitEvolvesOnItsOwn := by
  intro i s s' t t' hmem hparams hexec hexec'
  have hagree (u : Option UnitId) (hu : addressedUnit i = u) (h : s.AgreeOn s' u) :
      t.AgreeOn t' u ∧ AnswerAlike s s' t t' := by
    subst hu
    exact exec_agree hmem hparams h hexec hexec'
  refine ⟨hagree (some .e256), hagree (some .e512), fun hu htup hxlog => ?_,
    fun hu => (hagree none hu trivial).2⟩
  obtain ⟨⟨htup', hxlog'⟩, hanswer⟩ := hagree (some .tup) hu ⟨htup, hxlog⟩
  exact ⟨htup', hxlog', hanswer⟩

end Sys2Proof.Machine

/-!
PROOFS. The statements of spec/30_encoding.md: the decoder on a command word of R83's table and on every other one
(R80 to R87, R91), the step that runs a fetched word (R80, R87), and the response every command ends with (R90).
-/

namespace Sys2Proof

/-! ### The decoder on the sixteen command words (R81, R83)

A row of R83 is a command up to its operands. The decoder reads the row from the command word and the operands from
the descriptor's fields (`decode_of_commandWord`), which settles the round trip, the table and legality. -/

/-- The command of the same row with the operands read from `a` and `l`, a field its format ignores having no
effect (R82). -/
def Instr.withOperands : Instr → Nat → Nat → Instr
  | .ingest256 _ _, a, l => .ingest256 a l
  | .ingest512 _ _, a, l => .ingest512 a l
  | .nextdata _ _, a, l => .nextdata a l
  | .lenc _, _, l => .lenc l
  | .renc _, _, l => .renc l
  | .loadw32 _ _, a, l => .loadw32 a l
  | .loadw64 _ _, a, l => .loadw64 a l
  | i, _, _ => i

@[simp] theorem withOperands_own (i : Instr) : i.withOperands (operandA i) (operandL i) = i := by
  cases i <;> rfl

/-- The laws of the sixteen command words, for a command at large. -/
theorem commandWord_laws : ∀ i : Instr, Laws.CommandWord.Statement i
  | .reset256 => Laws.CommandWord.reset256
  | .reset512 => Laws.CommandWord.reset512
  | .resetTup => Laws.CommandWord.resetTup
  | .ingest256 a l => Laws.CommandWord.ingest256 a l
  | .ingest512 a l => Laws.CommandWord.ingest512 a l
  | .finalize256 => Laws.CommandWord.finalize256
  | .finalize512 => Laws.CommandWord.finalize512
  | .finalizeTup => Laws.CommandWord.finalizeTup
  | .digest256 => Laws.CommandWord.digest256
  | .digest512 => Laws.CommandWord.digest512
  | .digestTup => Laws.CommandWord.digestTup
  | .nextdata a l => Laws.CommandWord.nextdata a l
  | .lenc n => Laws.CommandWord.lenc n
  | .renc n => Laws.CommandWord.renc n
  | .loadw32 a i => Laws.CommandWord.loadw32 a i
  | .loadw64 a i => Laws.CommandWord.loadw64 a i

theorem decodeRow_commandWord (i : Instr) (a l : Nat) :
    decodeRow (cwOp (commandWord i)).toNat (cwUnit (commandWord i)).toNat a l =
      .ok (i.withOperands a l) := by
  cases i <;> simp [commandWord, cwOp, cwUnit, decodeRow, Instr.withOperands]

theorem decode_of_commandWord {d : Descriptor} {i : Instr} (h : d.cw = commandWord i) :
    decode d = .ok (i.withOperands d.a d.l) := by
  obtain ⟨hrsv, hunit, -⟩ := commandWord_laws i
  rw [decode, h, if_neg (not_not.mpr hrsv), if_neg hunit, decodeRow_commandWord]

theorem decode_descriptor_commandWord {l a : Nat} (hl : l < 2 ^ 64) (ha : a < 2 ^ 64) (i : Instr) :
    decode (descriptor l a (commandWord i)) = .ok (i.withOperands a l) := by
  rw [decode_of_commandWord (descriptor_cw ..), descriptor_a ha, descriptor_l hl]

/-- Settles O2: the descriptor carries the command's own word and operands. -/
theorem decodeEncodeRoundTrip : Obligations.DecodeEncodeRoundTrip := by
  intro i hwf
  obtain ⟨ha, hl⟩ := operands_fit hwf
  rw [encode, decode_descriptor_commandWord hl ha, withOperands_own]

/-- Settles O3: each row is its command word, whatever the fields hold. -/
theorem decodeByCommandWord : Obligations.DecodeByCommandWord := by
  intro l a hl ha
  have row := decode_descriptor_commandWord hl ha
  exact ⟨row .reset256, row .reset512, row .resetTup, row (.ingest256 a l), row (.ingest512 a l),
    row .finalize256, row .finalize512, row .finalizeTup, row .digest256, row .digest512,
    row .digestTup, row (.nextdata a l), row (.lenc l), row (.renc l), row (.loadw32 a l),
    row (.loadw64 a l)⟩

/-- Settles O1: the seven legal descriptors are read field by field, and the last has reserved bits set. -/
theorem sampleDescriptorsDecode : Obligations.SampleDescriptorsDecode := by
  refine ⟨by decide, by decide, by decide, by decide, by decide, by decide, by decide, fun i h => ?_⟩
  have hillegal : decode 0x0000000000000005000000000000100a0000ff02#160 = .error .reservedBits := by
    decide
  rw [hillegal] at h
  cases h

/-! ### Legality (R86, R232) -/

/-- The sixteen rows of R83, with operands that do not matter to the command word. -/
def tableRows : List Instr :=
  [.reset256, .reset512, .resetTup, .ingest256 0 0, .ingest512 0 0, .finalize256, .finalize512,
   .finalizeTup, .digest256, .digest512, .digestTup, .nextdata 0 0, .lenc 0, .renc 0, .loadw32 0 0,
   .loadw64 0 0]

theorem commandWord_mem_tableRows (i : Instr) : commandWord i ∈ tableRows.map commandWord := by
  cases i <;> simp [tableRows, commandWord]

theorem decode_ok_iff (d : Descriptor) :
    (∃ i, decode d = .ok i) ↔ d.cw ∈ tableRows.map commandWord := by
  constructor
  · rintro ⟨i, h⟩
    rw [(decode_ok h).1]
    exact commandWord_mem_tableRows i
  · intro h
    obtain ⟨i, -, hi⟩ := List.mem_map.mp h
    exact ⟨_, decode_of_commandWord hi.symm⟩

end Sys2Proof

namespace Sys2Proof.Machine

theorem step_of_illegal {s : State} {d : Descriptor} {rest : List HostInput} {e : Illegal}
    (h : s.pending = .command d :: rest) (hd : decode d = .error e) :
    step s = .next (rejectDescriptor { s with pending := rest }) := by
  rw [← take_of_pending h]
  simp [step, h, hd]

/-- Settles O4: the table's words are those of its rows, and no fault but a response follows any other. -/
theorem illegalExactlyOutsideTable : Obligations.IllegalExactlyOutsideTable := by
  refine ⟨decode_ok_iff, fun s d rest hpending hcw => ?_⟩
  cases hd : decode d with
  | ok i => exact absurd ((decode_ok_iff d).mp ⟨i, hd⟩) hcw
  | error e => exact step_of_illegal hpending hd

/-! ### A fetched word (R80, R87) -/

theorem decodeTableWord_eq_some {nbits w : Nat} {i : Instr} (h : decodeTableWord nbits w = some i) :
    decode (BitVec.ofNat 160 (w % 2 ^ nbits)) = .ok i := by
  unfold decodeTableWord at h
  split at h
  · cases h
    assumption
  · cases h

/-- Settles O6: the word is the pending descriptor, and taking it gives the state back. -/
theorem fetchWordRunsInstruction : Obligations.FetchWordRunsInstruction := fun s nbits w _ h =>
  step_of_command (s := s.withFetchWord nbits w) rfl (decodeTableWord_eq_some h)

/-! ### One response (R90, R230) -/

theorem exec_responds {i : Instr} {s t : State} (h : exec i s = .next t) :
    ∃ r, t.responses = s.responses ++ [r] := by
  rcases exec_cases h with hran | ⟨f, -, rfl⟩
  · obtain ⟨p, hp⟩ := ran_ok hran
    exact ⟨.ok p, hp⟩
  · exact ⟨.fault f, raise_responses ..⟩

theorem step_responds {s : State} {d : Descriptor} {rest : List HostInput}
    (h : s.pending = .command d :: rest) :
    ∃ t r, step s = .next t ∧ t.pending = rest ∧ t.responses = s.responses ++ [r] := by
  cases hd : decode d with
  | ok i =>
    have hexec := exec_eq_conclude i { s with pending := rest }
    obtain ⟨r, hr⟩ := exec_responds hexec
    obtain ⟨-, -, hpending⟩ := exec_inputs hexec
    exact ⟨_, r, (step_of_command h hd).trans hexec, hpending, hr⟩
  | error e => exact ⟨_, .fault .illegalCmd, step_of_illegal h hd, rfl, rfl⟩

theorem code_le_five (r : Response) : r.code.toNat ≤ 5 := by
  cases r with
  | ok p => exact Nat.zero_le 5
  | fault f => cases f <;> decide

theorem payload_of_code_ne_zero {r : Response} (h : r.code ≠ 0) : r.payload = [] := by
  cases r with
  | ok p => exact absurd rfl h
  | fault f => rfl

/-- Only a command that has all its effects answers `OK` (R238). -/
theorem exec_ok_completed {i : Instr} {s t : State} {p : List Byte} (h : exec i s = .next t)
    (hp : t.responses = s.responses ++ [.ok p]) : t = completed i s := by
  rcases exec_cases h with hran | ⟨f, -, rfl⟩
  · exact ran_completed hran
  · simp at hp

/-! ### Payload lengths (R90) -/

theorem leftEncode_length_bounds {n : Nat} (hn : n < 2 ^ 64) :
    2 ≤ (leftEncode n).length ∧ (leftEncode n).length ≤ 9 := by
  have hlow := minBELen_pos n
  have hhigh := minBELen_le_of_lt (k := 8) (by decide) hn
  rw [leftEncode_length]
  omega

/-- Both encoders add one length byte to `MinBE(n)`, at either end (R201, R202). -/
theorem rightEncode_length_eq (n : Nat) : (rightEncode n).length = (leftEncode n).length := by simp

theorem payload_eq_of_append {rs : List Response} {p q : List Byte}
    (h : rs ++ [.ok q] = rs ++ [.ok p]) : p = q := by simpa using h.symm

/-- Settles O8: a step runs a command or rejects the descriptor, each with one response, and an `OK` payload is
that of the command's effects. -/
theorem oneResponsePerCommand : Obligations.OneResponsePerCommand := by
  refine ⟨fun _ _ _ => step_responds, fun r => ⟨code_le_five r, payload_of_code_ne_zero⟩, ?_⟩
  intro i s t p hwf hexec hp
  obtain rfl := exec_ok_completed hexec hp
  cases i <;> obtain rfl := payload_eq_of_append hp
  case digest256 => exact digest256_length _
  case digest512 => exact digest512_length _ _
  case lenc n => exact leftEncode_length_bounds (operands_fit hwf).2
  case renc n => exact rightEncode_length_eq n ▸ leftEncode_length_bounds (operands_fit hwf).2
  case loadw32 | loadw64 => exact toBE_length ..
  all_goals rfl

end Sys2Proof.Machine

/-!
PROOFS. The statements of spec/40_lifecycle_commands.md: RESET (R102, R103) and DIGEST (R104, R105) of the two hash
engines.
-/

namespace Sys2Proof.Machine

/-! ### A command whose verdict is known (R96, R238) -/

section Verdict
variable {i : Instr} {s : State}

theorem exec_of_verdict_none (h : verdict i s = none) : exec i s = .next (completed i s) := by
  rw [exec_eq_conclude, h, conclude_none]

theorem exec_of_verdict_some {f : FaultCode} (h : verdict i s = some f) :
    exec i s = .next (s.raise (addressedUnit i) f) := by
  rw [exec_eq_conclude, h, conclude_some]

end Verdict

/-! ### RESET (R102, R103) -/

/-- Settles O23: RESET.256 has no check to fail, so it has all its effects in every state. -/
theorem reset256Completes : Obligations.Reset256Completes :=
  ⟨fun _ _ => decode_of_commandWord (i := .reset256) (descriptor_cw ..),
    fun _ => exec_of_verdict_none rfl⟩

/-- Settles O24: RESET.512 has no check to fail, so it has all its effects in every state. -/
theorem reset512Completes : Obligations.Reset512Completes :=
  ⟨fun _ _ => decode_of_commandWord (i := .reset512) (descriptor_cw ..),
    fun _ => exec_of_verdict_none rfl⟩

/-! ### The payload of DIGEST (R47, R104, R105) -/

theorem digest_eq_take {w : Nat} (n : Nat) (h : HashState w) :
    digest n h = (toBE (w / 8) h.h0.toNat ++ toBE (w / 8) h.h1.toNat ++ toBE (w / 8) h.h2.toNat ++
      toBE (w / 8) h.h3.toNat ++ toBE (w / 8) h.h4.toNat ++ toBE (w / 8) h.h5.toNat ++
      toBE (w / 8) h.h6.toNat ++ toBE (w / 8) h.h7.toNat).take n := by
  simp [digest, HashState.words]

/-- `DLEN(0)` is the length of all eight words, so nothing is cut off. -/
theorem digest256_eq (h : HashState 32) :
    digest dlen256 h = toBE 4 h.h0.toNat ++ toBE 4 h.h1.toNat ++ toBE 4 h.h2.toNat ++
      toBE 4 h.h3.toNat ++ toBE 4 h.h4.toNat ++ toBE 4 h.h5.toNat ++ toBE 4 h.h6.toNat ++
      toBE 4 h.h7.toNat := by
  rw [digest_eq_take]
  exact List.take_of_length_le (by simp [dlen256])

/-- The high bytes of a number are the bytes of its quotient. -/
theorem toBE_add (m n v : Nat) : toBE (m + n) v = toBE m (v / 256 ^ n) ++ toBE n v := by
  induction m with
  | zero => simp
  | succ m ih =>
    rw [Nat.succ_add, toBE, ih, toBE, Nat.div_div_eq_div_mul, ← pow_add, Nat.add_comm n,
      List.cons_append]

/-- "3 full 64-bit words + 4 bytes of a 4th" (R105): the cut falls in the middle of the fourth word. -/
theorem take_28_words (v0 v1 v2 v3 : Nat) (r4 r5 r6 r7 : List Byte) :
    (toBE 8 v0 ++ toBE 8 v1 ++ toBE 8 v2 ++ toBE 8 v3 ++ r4 ++ r5 ++ r6 ++ r7).take 28 =
      toBE 8 v0 ++ toBE 8 v1 ++ toBE 8 v2 ++ toBE 4 (v3 / 2 ^ 32) := by
  have hsplit : toBE 8 v3 = toBE 4 (v3 / 2 ^ 32) ++ toBE 4 v3 := toBE_add 4 4 v3
  have hlength : (toBE 8 v0 ++ toBE 8 v1 ++ toBE 8 v2 ++ toBE 4 (v3 / 2 ^ 32)).length = 28 := by simp
  rw [← List.take_left' (l₂ := toBE 4 v3 ++ r4 ++ r5 ++ r6 ++ r7) hlength, hsplit]
  simp only [List.append_assoc]

/-! ### DIGEST (R104, R105) -/

theorem lifeFault_digestHash_of_isOpen {l : Life} (h : l.isOpen) :
    lifeFault .digestHash l = some .misuse := by
  rcases h with rfl | rfl <;> rfl

/-- Settles O27: the check of R100's table decides, and the whole of `H` fits in `DLEN(0)` bytes. -/
theorem digest256Completes : Obligations.Digest256Completes := by
  refine ⟨fun _ _ => decode_of_commandWord (i := .digest256) (descriptor_cw ..), fun s => ⟨?_, ?_, ?_⟩⟩
  · intro hlife
    have hpass : verdict .digest256 s = none := congrArg (lifeFault .digestHash) hlife
    rw [exec_of_verdict_none hpass, completed, digest256_eq]
  · intro hopen
    have hmisuse : verdict .digest256 s = some .misuse := lifeFault_digestHash_of_isOpen hopen
    exact exec_of_verdict_some hmisuse
  · intro hlife
    have hfaulted : verdict .digest256 s = some .unitFaulted := congrArg (lifeFault .digestHash) hlife
    exact exec_of_verdict_some hfaulted

/-- Settles O28: the check of R100's table decides, and `DLEN(1)` cuts the serialised state. -/
theorem digest512Completes : Obligations.Digest512Completes := by
  refine ⟨fun _ _ => decode_of_commandWord (i := .digest512) (descriptor_cw ..), rfl,
    fun s => ⟨?_, ?_, ?_⟩⟩
  · intro hlife bytes payload
    have hpass : verdict .digest512 s = none := congrArg (lifeFault .digestHash) hlife
    refine ⟨?_, fun hdlen => ?_⟩
    · rw [exec_of_verdict_none hpass, completed, digest_eq_take]
    · have h28 : s.params.dlen512.val = 28 := congrArg Fin.val hdlen
      simp only [payload, bytes, h28]
      exact take_28_words ..
  · intro hopen
    have hmisuse : verdict .digest512 s = some .misuse := lifeFault_digestHash_of_isOpen hopen
    exact exec_of_verdict_some hmisuse
  · intro hlife
    have hfaulted : verdict .digest512 s = some .unitFaulted := congrArg (lifeFault .digestHash) hlife
    exact exec_of_verdict_some hfaulted

end Sys2Proof.Machine

/-!
PROOFS. The statements of spec/41_loader_and_ingest.md: the ingestion protocol (R123 to R125, R131), INGEST
(R126 to R129) and LOADW (R120 to R122).
-/

namespace Sys2Proof.Machine

/-! ### Ingestion in one form (R123, R125)

Steps 3 and 4 of R123 take an input of their own, `consumeBlocks`. Blocks compressed beforehand do not matter to
them (`consumeBlocks_append`), so all four steps are `consumeBlocks` of the buffer followed by the data
(`takeInput_eq_consumeBlocks`). The shorter form and chunking invariance both follow. -/

section Ingest
variable {w c : Nat} {F : Family w} {e : Engine w c}

/-- Less than a block is kept whole. -/
theorem consumeBlocks_of_short {rest : List Byte} (h : rest.length < F.blockBytes) (e : Engine w c) :
    consumeBlocks F e rest = { e with buf := rest } := by
  simp [consumeBlocks, Nat.div_eq_of_lt h]

/-- The first `p` blocks may be compressed ahead of the rest. -/
theorem consumeBlocks_append (e : Engine w c) {p : Nat} {x : List Byte} (hB : 0 < F.blockBytes)
    (hp : p * F.blockBytes ≤ x.length) (y : List Byte) :
    consumeBlocks F e (x ++ y) =
      consumeBlocks F { e with h := compressBlocks F p e.h x } (x.drop (p * F.blockBytes) ++ y) := by
  have hdrop : (x ++ y).drop (p * F.blockBytes) = x.drop (p * F.blockBytes) ++ y :=
    List.drop_append_of_le_length hp
  have hq : (x ++ y).length / F.blockBytes =
      p + (x.drop (p * F.blockBytes) ++ y).length / F.blockBytes := by
    rw [← hdrop, List.length_drop, Nat.mul_comm p, Nat.sub_mul_div, Nat.add_sub_cancel']
    rw [Nat.le_div_iff_mul_le hB, List.length_append]
    omega
  simp only [consumeBlocks]
  rw [hq, compressBlocks_add, compressBlocks_append F p e.h x y hp, hdrop, Nat.add_mul,
    ← List.drop_drop, hdrop]

/-- A block topped up in the buffer is compressed like one read from the input. -/
theorem consumeBlocks_block_append (e : Engine w c) {blk : List Byte} (hB : 0 < F.blockBytes)
    (hblk : blk.length = F.blockBytes) (rest : List Byte) :
    consumeBlocks F e (blk ++ rest) =
      consumeBlocks F { e with h := F.compress e.h blk, buf := [] } rest := by
  rw [consumeBlocks_append e (p := 1) hB (by omega)]
  simp [consumeBlocks, compressBlocks, ← hblk]

/-- The four steps of R123 cut the buffer followed by the data into blocks. -/
theorem takeInput_eq_consumeBlocks (h : e.buf.length < F.blockBytes) (data : List Byte) :
    takeInput F e data = consumeBlocks F e (e.buf ++ data) := by
  unfold takeInput
  split
  case isFalse hempty =>
    rw [List.length_eq_zero_iff.mp (Nat.eq_zero_of_not_pos hempty), List.nil_append]
  case isTrue =>
    generalize hk : min (F.blockBytes - e.buf.length) data.length = k
    have hfull : (e.buf ++ data.take k).length = e.buf.length + k := by
      rw [List.length_append, List.length_take]
      omega
    dsimp only
    split
    case isTrue hshort =>
      have hall : data.length ≤ k := by omega
      rw [List.take_of_length_le hall] at hshort ⊢
      rw [consumeBlocks_of_short hshort]
    case isFalse hblock =>
      rw [← consumeBlocks_block_append e (by omega) (by omega), List.append_assoc, List.take_append_drop]

theorem ingest_eq_consumeBlocks (h : e.buf.length < F.blockBytes) (data : List Byte) :
    ingest F e data =
      { consumeBlocks F e (e.buf ++ data) with count := addCount e.count data.length } := by
  rw [ingest, takeInput_eq_consumeBlocks h]

@[simp] theorem addCount_zero (count : BitVec c) : addCount count 0 = count := by simp [addCount]

theorem addCount_add (count : BitVec c) (l l' : Nat) :
    addCount (addCount count l) l' = addCount count (l + l') := by
  simp only [addCount, BitVec.ofNat_add, BitVec.add_assoc]

theorem addCount_eq_ofNat (count : BitVec c) (l : Nat) :
    addCount count l = BitVec.ofNat c (count.toNat + l) := by
  simp [addCount, BitVec.ofNat_add]

/-- An empty input is a no-op (R129). -/
theorem ingest_nil (h : e.buf.length < F.blockBytes) : ingest F e [] = e := by
  rw [ingest_eq_consumeBlocks h, List.append_nil, consumeBlocks_of_short h, List.length_nil, addCount_zero]

/-- Two inputs in a row are one: the tail the first leaves stands in front of the second (R131). -/
theorem ingest_ingest (h : e.buf.length < F.blockBytes) (data1 data2 : List Byte) :
    ingest F (ingest F e data1) data2 = ingest F e (data1 ++ data2) := by
  have hB : 0 < F.blockBytes := Nat.zero_lt_of_lt h
  have hshort : (ingest F e data1).buf.length < F.blockBytes := by
    rw [ingest, takeInput_buf_length h]
    exact Nat.mod_lt _ hB
  rw [ingest_eq_consumeBlocks hshort, ingest_eq_consumeBlocks h, ingest_eq_consumeBlocks h,
    ← List.append_assoc,
    consumeBlocks_append e hB (Nat.div_mul_le_self (e.buf ++ data1).length _) data2,
    List.length_append (as := data1), ← addCount_add]
  rfl

/-- The engine after an INGEST, field by field (R125, R126). -/
theorem ingest_accepting (h : e.buf.length < F.blockBytes) (data : List Byte) :
    { ingest F e data with life := .accepting } =
      { h := compressBlocks F ((e.buf.length + data.length) / F.blockBytes) e.h (e.buf ++ data)
        buf := (e.buf ++ data).drop
          (F.blockBytes * ((e.buf.length + data.length) / F.blockBytes))
        count := BitVec.ofNat c (e.count.toNat + data.length)
        life := .accepting } := by
  rw [ingest_eq_consumeBlocks h, addCount_eq_ofNat, consumeBlocks, List.length_append, Nat.mul_comm]

end Ingest

/-- Settles O33: both forms cut the buffer followed by the data into blocks. -/
theorem fourStepsEqualShortForm : Obligations.FourStepsEqualShortForm :=
  fun _ _ _ _ data h => ingest_eq_consumeBlocks h data

/-! ### Chunking invariance (R131) -/

section Chunking
variable {i : Instr} {s t : State}

/-- The fault a command raises leaves its unit Faulted: it marks the unit, or the unit was Faulted (R238). -/
theorem Raises.life_faulted {f : FaultCode} {u : UnitId} (h : Raises i s f)
    (hu : addressedUnit i = some u) : (s.raise (some u) f).life u = .faulted := by
  obtain ⟨hlegal, hfaulted⟩ := h
  rw [raise_life]
  cases f
  case illegalCmd => exact absurd rfl hlegal
  case unitFaulted => simp [(hfaulted u hu).mp rfl]
  all_goals simp [FaultCode.marks]

/-- A command that does not leave its unit Faulted has had all its effects. -/
theorem exec_completed_of_not_faulted {u : UnitId} (hexec : exec i s = .next t)
    (hu : addressedUnit i = some u) (hlife : t.life u ≠ .faulted) : t = completed i s := by
  rcases exec_cases hexec with hran | ⟨f, hf, rfl⟩
  · exact ran_completed hran
  · rw [hu] at hlife
    exact absurd (hf.life_faulted hu) hlife

theorem exec_ingest256_accepting {a l : Nat} (hexec : exec (.ingest256 a l) s = .next t)
    (hlife : t.e256.life = .accepting) : t = completed (.ingest256 a l) s :=
  exec_completed_of_not_faulted (u := .e256) hexec rfl (by simp [State.life, hlife])

theorem exec_ingest512_accepting {a l : Nat} (hexec : exec (.ingest512 a l) s = .next t)
    (hlife : t.e512.life = .accepting) : t = completed (.ingest512 a l) s :=
  exec_completed_of_not_faulted (u := .e512) hexec rfl (by simp [State.life, hlife])

end Chunking

/-- Settles O34: the three commands have all their effects, and two inputs in a row are one. -/
theorem chunkingInvariance : Obligations.ChunkingInvariance := by
  refine ⟨?_, ?_⟩
  · intro s s1 s2 t a l a1 l1 a2 l2 hbuf hdata h1 h2 ht hlife1 hlife2 hlife
    obtain rfl := exec_ingest256_accepting h1 hlife1
    obtain rfl := exec_ingest256_accepting h2 hlife2
    obtain rfl := exec_ingest256_accepting ht hlife
    simp only [completed, ingest_with_life, hdata, ingest_ingest (F := sha256) hbuf]
  · intro s s1 s2 t a l a1 l1 a2 l2 hbuf hdata h1 h2 ht hlife1 hlife2 hlife
    obtain rfl := exec_ingest512_accepting h1 hlife1
    obtain rfl := exec_ingest512_accepting h2 hlife2
    obtain rfl := exec_ingest512_accepting ht hlife
    simp only [completed, ingest_with_life, hdata, ingest_ingest (F := sha512t) hbuf]

/-! ### INGEST (R126 to R129) -/

/-- The verdict on an INGEST of either engine: the lifecycle, then the checks of R128 in order. -/
def ingestVerdict {w c : Nat} (F : Family w) (e : Engine w c) (holes : List Hole) (a l : Nat) :
    Option FaultCode :=
  (lifeFault .ingest e.life).or <|
  (checkFault .addrRange (readable holes a l)).or <|
  checkFault .lenOverflow (countFits F.maxCount e.count l)

section IngestVerdict
variable {w c : Nat} {F : Family w} {e : Engine w c} {holes : List Hole} {a l : Nat}

theorem verdict_ingest256 (s : State) (a l : Nat) :
    verdict (.ingest256 a l) s = ingestVerdict sha256 s.e256 s.params.holes a l := rfl

theorem verdict_ingest512 (s : State) (a l : Nat) :
    verdict (.ingest512 a l) s = ingestVerdict sha512t s.e512 s.params.holes a l := rfl

theorem checkFault_of_readable (h : Readable holes a l) :
    checkFault .addrRange (readable holes a l) = none := by
  rw [(readable_iff holes a l).mpr h]
  rfl

theorem checkFault_of_not_readable (h : ¬Readable holes a l) :
    checkFault .addrRange (readable holes a l) = some .addrRange := by
  rw [(readable_eq_false_iff holes a l).mpr h]
  rfl

theorem lifeFault_ingest_of_isOpen {l : Life} (h : l.isOpen) : lifeFault .ingest l = none := by
  rcases h with rfl | rfl <;> rfl

theorem ingestVerdict_of_faulted (h : e.life = .faulted) :
    ingestVerdict F e holes a l = some .unitFaulted := by
  rw [ingestVerdict, h]
  rfl

theorem ingestVerdict_of_finalized (h : e.life = .finalized) :
    ingestVerdict F e holes a l = some .misuse := by
  rw [ingestVerdict, h]
  rfl

theorem ingestVerdict_of_not_readable (hopen : e.life.isOpen) (h : ¬Readable holes a l) :
    ingestVerdict F e holes a l = some .addrRange := by
  rw [ingestVerdict, lifeFault_ingest_of_isOpen hopen, checkFault_of_not_readable h]
  rfl

theorem ingestVerdict_of_readable (hopen : e.life.isOpen) (h : Readable holes a l) :
    ingestVerdict F e holes a l = checkFault .lenOverflow (countFits F.maxCount e.count l) := by
  rw [ingestVerdict, lifeFault_ingest_of_isOpen hopen, checkFault_of_readable h]
  rfl

theorem ingestVerdict_of_overflow (hopen : e.life.isOpen) (h : Readable holes a l)
    (hcount : F.maxCount < e.count.toNat + l) : ingestVerdict F e holes a l = some .lenOverflow := by
  have hfits : countFits F.maxCount e.count l = false := decide_eq_false (by omega)
  rw [ingestVerdict_of_readable hopen h, hfits]
  rfl

theorem ingestVerdict_of_fits (hopen : e.life.isOpen) (h : Readable holes a l)
    (hcount : e.count.toNat + l ≤ F.maxCount) : ingestVerdict F e holes a l = none := by
  rw [ingestVerdict_of_readable hopen h, (countFits_iff ..).mpr hcount]
  rfl

/-- No check fails on an empty input, at any address (R129). -/
theorem ingestVerdict_empty {iv : HashState w} (hopen : e.life.isOpen) (h : e.Inv F iv) :
    ingestVerdict F e holes a 0 = none :=
  ingestVerdict_of_fits hopen (.inl rfl) h.countFits

end IngestVerdict

/-- Settles O30: the checks of R126 and R128 in order decide, and the data path is that of R125. -/
theorem ingest256Completes : Obligations.Ingest256Completes := by
  refine ⟨fun a l ha hl => decode_descriptor_commandWord hl ha (.ingest256 a l),
    fun s a l => ⟨?_, ?_, ?_, ?_, ?_⟩⟩
  · intro hopen hbuf hread hcount data q
    have hpass : verdict (.ingest256 a l) s = none := ingestVerdict_of_fits hopen hread hcount
    rw [exec_of_verdict_none hpass, completed, ingest_accepting hbuf, memRead_length]
    rfl
  · exact fun hlife => exec_of_verdict_some (i := .ingest256 a l) (ingestVerdict_of_faulted hlife)
  · exact fun hlife => exec_of_verdict_some (i := .ingest256 a l) (ingestVerdict_of_finalized hlife)
  · exact fun hopen hread =>
      exec_of_verdict_some (i := .ingest256 a l) (ingestVerdict_of_not_readable hopen hread)
  · exact fun hopen hread hcount =>
      exec_of_verdict_some (i := .ingest256 a l) (ingestVerdict_of_overflow hopen hread hcount)

/-- Settles O31: the checks of R127 and R128 in order decide, and the data path is that of R125. -/
theorem ingest512Completes : Obligations.Ingest512Completes := by
  refine ⟨fun a l ha hl => decode_descriptor_commandWord hl ha (.ingest512 a l),
    fun s a l => ⟨?_, ?_, ?_, ?_, ?_⟩⟩
  · intro hopen hbuf hread hcount data q
    have hpass : verdict (.ingest512 a l) s = none := ingestVerdict_of_fits hopen hread hcount
    rw [exec_of_verdict_none hpass, completed, ingest_accepting hbuf, memRead_length]
    rfl
  · exact fun hlife => exec_of_verdict_some (i := .ingest512 a l) (ingestVerdict_of_faulted hlife)
  · exact fun hlife => exec_of_verdict_some (i := .ingest512 a l) (ingestVerdict_of_finalized hlife)
  · exact fun hopen hread =>
      exec_of_verdict_some (i := .ingest512 a l) (ingestVerdict_of_not_readable hopen hread)
  · exact fun hopen hread hcount =>
      exec_of_verdict_some (i := .ingest512 a l) (ingestVerdict_of_overflow hopen hread hcount)

/-- Settles O32: an empty input passes the checks of R128, and the lifecycle comes before them. -/
theorem zeroLengthIngest : Obligations.ZeroLengthIngest := by
  refine fun s a h256 h512 => ⟨?_, ?_, ?_, ?_, ?_, ?_⟩
  · intro hopen
    have hpass : verdict (.ingest256 a 0) s = none := ingestVerdict_empty hopen h256
    rw [exec_of_verdict_none hpass, completed, memRead_zero, ingest_nil h256.bufShort]
  · intro hopen
    have hpass : verdict (.ingest512 a 0) s = none := ingestVerdict_empty hopen h512
    rw [exec_of_verdict_none hpass, completed, memRead_zero, ingest_nil h512.bufShort]
  · exact fun hlife => exec_of_verdict_some (i := .ingest256 a 0) (ingestVerdict_of_finalized hlife)
  · exact fun hlife => exec_of_verdict_some (i := .ingest512 a 0) (ingestVerdict_of_finalized hlife)
  · exact fun hlife => exec_of_verdict_some (i := .ingest256 a 0) (ingestVerdict_of_faulted hlife)
  · exact fun hlife => exec_of_verdict_some (i := .ingest512 a 0) (ingestVerdict_of_faulted hlife)

/-! ### LOADW (R121, R122) -/

section Loadw
variable {s : State} {a i : Nat}

/-- A range is not readable when it ends past `2^64` or an address of it is not `MEM_VALID` (R61). -/
theorem not_readable_of_past_or_invalid {holes : List Hole} {ea n : Nat} (hn : n ≠ 0)
    (h : 2 ^ 64 < ea + n ∨ ∃ x, ea ≤ x ∧ x < ea + n ∧ memValid holes x = false) :
    ¬Readable holes ea n := by
  rintro (hzero | ⟨hend, hvalid⟩)
  · exact hn hzero
  · rcases h with hpast | ⟨x, hlow, hhigh, hx⟩
    · omega
    · rw [hvalid x hlow hhigh] at hx
      cases hx

theorem exec_loadw32_of_readable (h : Readable s.params.holes (a + i * 4) 4) :
    exec (.loadw32 a i) s = .next
      { s with responses := s.responses ++ [.ok (memRead s.mem (a + i * 4) 4)] } := by
  rw [exec_of_verdict_none (i := .loadw32 a i) (checkFault_of_readable h), completed, toBE_loadWord]

theorem exec_loadw64_of_readable (h : Readable s.params.holes (a + i * 8) 8) :
    exec (.loadw64 a i) s = .next
      { s with responses := s.responses ++ [.ok (memRead s.mem (a + i * 8) 8)] } := by
  rw [exec_of_verdict_none (i := .loadw64 a i) (checkFault_of_readable h), completed, toBE_loadWord]

theorem be_four (b0 b1 b2 b3 : Byte) :
    be [b0, b1, b2, b3] =
      b0.toNat * 2 ^ 24 + b1.toNat * 2 ^ 16 + b2.toNat * 2 ^ 8 + b3.toNat := by
  simp only [be, List.foldl_cons, List.foldl_nil]
  omega

/-- A word of eight bytes is two words of four, the high one first. -/
theorem be_eight (b0 b1 b2 b3 b4 b5 b6 b7 : Byte) :
    be [b0, b1, b2, b3, b4, b5, b6, b7] =
      (b0.toNat * 2 ^ 24 + b1.toNat * 2 ^ 16 + b2.toNat * 2 ^ 8 + b3.toNat) * 2 ^ 32 +
        (b4.toNat * 2 ^ 24 + b5.toNat * 2 ^ 16 + b6.toNat * 2 ^ 8 + b7.toNat) := by
  rw [← be_four, ← be_four, show 2 ^ 32 = 256 ^ 4 from rfl]
  exact be_append [b0, b1, b2, b3] [b4, b5, b6, b7]

end Loadw

/-- Settles O44: the bytes of the word are answered as they were read, and they are big-endian. -/
theorem loadw32Completes : Obligations.Loadw32Completes := by
  refine ⟨fun a i ha hi => decode_descriptor_commandWord hi ha (.loadw32 a i), fun s a i => ⟨?_, ?_⟩⟩
  · exact fun hend hvalid => ⟨exec_loadw32_of_readable (.inr ⟨hend, hvalid⟩), be_four ..⟩
  · exact fun h => exec_of_verdict_some (i := .loadw32 a i)
      (checkFault_of_not_readable (not_readable_of_past_or_invalid (by decide) h))

/-- Settles O45: as for four bytes, the word being two words of four. -/
theorem loadw64Completes : Obligations.Loadw64Completes := by
  refine ⟨fun a i ha hi => decode_descriptor_commandWord hi ha (.loadw64 a i), fun s a i => ⟨?_, ?_⟩⟩
  · exact fun hend hvalid => ⟨exec_loadw64_of_readable (.inr ⟨hend, hvalid⟩), be_eight ..⟩
  · exact fun h => exec_of_verdict_some (i := .loadw64 a i)
      (checkFault_of_not_readable (not_readable_of_past_or_invalid (by decide) h))

end Sys2Proof.Machine

/-!
PROOFS. The statements of spec/42_md_padding_finalize.md: the padded buffer (R140 to R142), FINALIZE of the two hash
engines (R143 to R146) and the whole hash as one function (R147).
-/

namespace Sys2Proof.Machine

/-! ### The padded buffer (R140, R142)

After the buffer stand the marker, the zeros and the length field. All but the number of zeros is the same in both
units. -/

section Padding
variable {w : Nat} (F : Family w) (buf : List Byte) (count : Nat)

theorem pad_eq_append : pad F buf count =
    buf ++ [0x80] ++ zeros (zeroFill F.blockBytes F.lengthField (buf.length + 1)) ++
      lengthBytes F.lengthField count := by
  simp [pad]

theorem pad_take_buf : (pad F buf count).take buf.length = buf := by
  rw [pad_eq_append, List.append_assoc, List.append_assoc, List.take_left']
  rfl

theorem pad_marker : (pad F buf count)[buf.length]? = some 0x80 := by
  simp [pad_eq_append]

/-- The bytes between the marker and the length field are the zeros. -/
theorem pad_zero {j : Nat} (hlow : buf.length < j)
    (hhigh : j < (pad F buf count).length - F.lengthField) : (pad F buf count)[j]? = some 0 := by
  rw [pad_length] at hhigh
  rw [pad_eq_append, List.getElem?_append_left (by simp; omega),
    List.getElem?_append_right (by simp; omega), zeros, List.getElem?_replicate,
    if_pos (by simp; omega)]

/-- The last `LF` bytes hold the bit count where it needs no more of them (R141). -/
theorem pad_lengthField (hfits : 8 * count < 256 ^ F.lengthField) :
    be ((pad F buf count).drop ((pad F buf count).length - F.lengthField)) = 8 * count := by
  rw [pad_length, Nat.add_sub_cancel, pad_eq_append, List.drop_left' (by simp; omega), lengthBytes,
    be_toBE_of_lt hfits]

end Padding

theorem pad_length_256 {buf : List Byte} (h : buf.length < 64) (count : Nat) :
    (pad sha256 buf count).length = if buf.length ≤ 55 then 64 else 128 := by
  rw [pad_length, sha256_blockBytes, sha256_lengthField, zeroFill_256 h]
  split <;> omega

theorem pad_length_512 {buf : List Byte} (h : buf.length < 128) (count : Nat) :
    (pad sha512t buf count).length = if buf.length ≤ 111 then 128 else 256 := by
  rw [pad_length, sha512t_blockBytes, sha512t_lengthField, zeroFill_512 h]
  split <;> omega

/-- Settles O38: the number of zeros makes one block or two, and MAXCOUNT bounds the bit count. -/
theorem paddingShape : Obligations.PaddingShape := by
  refine ⟨fun buf count hbuf hcount => ?_, fun buf count hbuf hcount => ?_⟩
  · have hfits : 8 * count < 256 ^ 8 := by omega
    exact ⟨pad_length_256 hbuf count, pad_take_buf .., pad_marker .., fun _ => pad_zero sha256 buf count,
      pad_lengthField sha256 buf count hfits⟩
  · have hfits : 8 * count < 256 ^ 16 := by omega
    exact ⟨pad_length_512 hbuf count, pad_take_buf .., pad_marker .., fun _ => pad_zero sha512t buf count,
      pad_lengthField sha512t buf count hfits⟩

/-! ### The 16-byte length field (R141, R21) -/

/-- Settles O39: the field is cut in the middle, and the bit count needs no more than its 16 bytes. -/
theorem wideLengthField : Obligations.WideLengthField := by
  intro count hcount lo hi
  have hhigh : 8 * count / 256 ^ 8 = (8 * hi + lo / 2 ^ 61) % 2 ^ 64 := by omega
  have hlow : 8 * count % 256 ^ 8 = 8 * lo % 2 ^ 64 := by omega
  calc
    lengthBytes 16 count = toBE 8 (8 * count / 256 ^ 8) ++ toBE 8 (8 * count) := toBE_add 8 8 _
    _ = toBE 8 (8 * count / 256 ^ 8) ++ toBE 8 (8 * count % 256 ^ 8) := by rw [toBE_mod]
    _ = _ := by rw [hhigh, hlow]

/-! ### FINALIZE (R143 to R146) -/

theorem compressBlocks_one_or_two {w : Nat} (F : Family w) (hB : 0 < F.blockBytes) (h : HashState w)
    {p : List Byte} {one : Prop} [Decidable one]
    (hp : p.length = if one then F.blockBytes else 2 * F.blockBytes) :
    compressBlocks F (p.length / F.blockBytes) h p =
      if one then F.compress h (p.take F.blockBytes)
      else F.compress (F.compress h (p.take F.blockBytes)) (p.drop F.blockBytes) := by
  by_cases hone : one
  · rw [if_pos hone] at hp ⊢
    rw [hp, Nat.div_self hB]
    rfl
  · rw [if_neg hone] at hp ⊢
    have hlast : (p.drop F.blockBytes).length ≤ F.blockBytes := by
      rw [List.length_drop]
      omega
    rw [hp, Nat.mul_div_cancel _ hB]
    simp only [compressBlocks, List.take_of_length_le hlast]

theorem lifeFault_finalize_of_isOpen {l : Life} (h : l.isOpen) : lifeFault .finalize l = none := by
  rcases h with rfl | rfl <;> rfl

/-- Settles O36: the check of R100's table decides, and the padded buffer is one block or two. -/
theorem finalize256Completes : Obligations.Finalize256Completes := by
  refine ⟨fun _ _ => decode_of_commandWord (i := .finalize256) (descriptor_cw ..), fun s => ⟨?_, ?_, ?_⟩⟩
  · intro hopen hbuf _ n z p h1
    have hpass : verdict .finalize256 s = none := lifeFault_finalize_of_isOpen hopen
    have hpad : pad sha256 s.e256.buf s.e256.count.toNat = p := by
      rw [pad_eq_append, sha256_blockBytes, sha256_lengthField, zeroFill_256 hbuf]
      rfl
    have hblocks : compressBlocks sha256 (p.length / 64) s.e256.h p =
        if n ≤ 55 then h1 else compress256 h1 (p.drop 64) :=
      compressBlocks_one_or_two sha256 (by decide) _ (hpad ▸ pad_length_256 hbuf _)
    rw [exec_of_verdict_none hpass, completed, finish, hpad, sha256_blockBytes, hblocks]
  · exact fun hlife => exec_of_verdict_some (i := .finalize256) (congrArg (lifeFault .finalize) hlife)
  · exact fun hlife => exec_of_verdict_some (i := .finalize256) (congrArg (lifeFault .finalize) hlife)

/-- Settles O37: the check of R100's table decides, and the padded buffer is one block or two. -/
theorem finalize512Completes : Obligations.Finalize512Completes := by
  refine ⟨fun _ _ => decode_of_commandWord (i := .finalize512) (descriptor_cw ..), fun s => ⟨?_, ?_, ?_⟩⟩
  · intro hopen hbuf _ n z p h1
    have hpass : verdict .finalize512 s = none := lifeFault_finalize_of_isOpen hopen
    have hpad : pad sha512t s.e512.buf s.e512.count.toNat = p := by
      rw [pad_eq_append, sha512t_blockBytes, sha512t_lengthField, zeroFill_512 hbuf]
      rfl
    have hblocks : compressBlocks sha512t (p.length / 128) s.e512.h p =
        if n ≤ 111 then h1 else compress512 h1 (p.drop 128) :=
      compressBlocks_one_or_two sha512t (by decide) _ (hpad ▸ pad_length_512 hbuf _)
    rw [exec_of_verdict_none hpass, completed, finish, hpad, sha512t_blockBytes, hblocks]
  · exact fun hlife => exec_of_verdict_some (i := .finalize512) (congrArg (lifeFault .finalize) hlife)
  · exact fun hlife => exec_of_verdict_some (i := .finalize512) (congrArg (lifeFault .finalize) hlife)

/-! ### The whole hash in one engine (R147)

The buffer is the tail of the message, so the padded buffer is the tail of the padded message. The blocks FINALIZE
compresses are therefore the ones INGEST left over. -/

section WholeHash
variable {w c : Nat} {F : Family w}

/-- The zeros depend on the buffer only modulo `B` (R147). -/
theorem zeroFill_tail (B LF len : Nat) :
    zeroFill B LF (len % B + 1) = (((B : Int) - LF - 1 - len) % B).toNat := by
  unfold zeroFill
  congr 1
  push_cast
  rw [show (B : Int) - LF - (len % B + 1) = B - LF - 1 - len % B by ring, Int.sub_emod_emod]

theorem pad_tail {buf : List Byte} {len : Nat} (h : buf.length = len % F.blockBytes) :
    pad F buf len = buf ++ padTail F len := by
  rw [pad_eq_append, h, zeroFill_tail]
  simp [padTail, lengthBytes]

theorem finish_h (e : Engine w c) :
    (finish F e).h = (consumeBlocks F e (pad F e.buf e.count.toNat)).h := rfl

theorem digest_finish_ingest (hB : 0 < F.blockBytes) (iv : HashState w) (dlen : Nat) {msg : List Byte}
    (hmsg : msg.length < 2 ^ c) :
    digest dlen (finish F (ingest F (Engine.initial c iv) msg)).h = hashMessage F dlen iv msg := by
  have hingest : ingest F (Engine.initial c iv) msg =
      { consumeBlocks F (Engine.initial c iv) msg with count := addCount 0 msg.length } :=
    ingest_eq_consumeBlocks (e := Engine.initial c iv) hB msg
  have hcount : (addCount (0 : BitVec c) msg.length).toNat = msg.length := by
    rw [addCount_toNat] <;> simp [hmsg]
  rw [finish_h, hingest, hcount, pad_tail (consumeBlocks_buf_length _ _), hashMessage]
  exact congrArg (digest dlen ·.h)
    (consumeBlocks_append (Engine.initial c iv) hB (Nat.div_mul_le_self msg.length _)
      (padTail F msg.length)).symm

end WholeHash

/-! ### The command sequence of a hash engine (R95, R147)

Both engines run one sequence on one family of states: `after s e rs`, which is `s` but for its engine `e` and the
answers `rs` given since. -/

/-- A hash engine with its commands, and what each command does on the states of the sequence. -/
structure HashUnit (w c : Nat) where
  family : Family w
  iv : Params → HashState w
  dlen : Params → Nat
  resetCmd : Instr
  ingestCmd : Nat → Nat → Instr
  finalizeCmd : Instr
  digestCmd : Instr
  /-- The state with the engine replaced and the answers appended. -/
  after : State → Engine w c → List Response → State
  blockBytes_pos : 0 < family.blockBytes
  maxCount_lt : family.maxCount < 2 ^ c
  exec_reset (s : State) :
    exec resetCmd s = .next (after s (Engine.initial c (iv s.params)) [.ok []])
  exec_ingest (s : State) {e : Engine w c} (rs : List Response) {a l : Nat} (hopen : e.life.isOpen)
    (hread : Readable s.params.holes a l) (hfit : e.count.toNat + l ≤ family.maxCount) :
    exec (ingestCmd a l) (after s e rs) = .next
      (after s { ingest family e (memRead s.mem a l) with life := .accepting } (rs ++ [.ok []]))
  exec_finalize (s : State) {e : Engine w c} (rs : List Response) (hopen : e.life.isOpen) :
    exec finalizeCmd (after s e rs) = .next
      (after s { finish family e with life := .finalized } (rs ++ [.ok []]))
  exec_digest (s : State) {e : Engine w c} (rs : List Response) (hlife : e.life = .finalized) :
    exec digestCmd (after s e rs) = .next (after s e (rs ++ [.ok (digest (dlen s.params) e.h)]))

/-- The state with another engine in unit 0 and more answers. -/
def State.after256 (s : State) (e : Engine 32 64) (rs : List Response) : State :=
  { s with e256 := e, responses := s.responses ++ rs }

/-- The state with another engine in unit 1 and more answers. -/
def State.after512 (s : State) (e : Engine 64 128) (rs : List Response) : State :=
  { s with e512 := e, responses := s.responses ++ rs }

/-- Unit 0. -/
def hashUnit256 : HashUnit 32 64 where
  family := sha256
  iv := Params.iv256
  dlen _ := dlen256
  resetCmd := .reset256
  ingestCmd := .ingest256
  finalizeCmd := .finalize256
  digestCmd := .digest256
  after := State.after256
  blockBytes_pos := by decide
  maxCount_lt := by decide
  exec_reset _ := rfl
  exec_ingest s e rs a l hopen hread hfit := by
    have hpass : verdict (.ingest256 a l) (s.after256 e rs) = none :=
      ingestVerdict_of_fits hopen hread hfit
    rw [exec_of_verdict_none hpass]
    simp [completed, State.after256]
  exec_finalize s e rs hopen := by
    have hpass : verdict .finalize256 (s.after256 e rs) = none := lifeFault_finalize_of_isOpen hopen
    rw [exec_of_verdict_none hpass]
    simp [completed, State.after256]
  exec_digest s e rs hlife := by
    have hpass : verdict .digest256 (s.after256 e rs) = none := congrArg (lifeFault .digestHash) hlife
    rw [exec_of_verdict_none hpass]
    simp [completed, State.after256]

/-- Unit 1. -/
def hashUnit512 : HashUnit 64 128 where
  family := sha512t
  iv := Params.iv512
  dlen p := p.dlen512.val
  resetCmd := .reset512
  ingestCmd := .ingest512
  finalizeCmd := .finalize512
  digestCmd := .digest512
  after := State.after512
  blockBytes_pos := by decide
  maxCount_lt := by decide
  exec_reset _ := rfl
  exec_ingest s e rs a l hopen hread hfit := by
    have hpass : verdict (.ingest512 a l) (s.after512 e rs) = none :=
      ingestVerdict_of_fits hopen hread hfit
    rw [exec_of_verdict_none hpass]
    simp [completed, State.after512]
  exec_finalize s e rs hopen := by
    have hpass : verdict .finalize512 (s.after512 e rs) = none := lifeFault_finalize_of_isOpen hopen
    rw [exec_of_verdict_none hpass]
    simp [completed, State.after512]
  exec_digest s e rs hlife := by
    have hpass : verdict .digest512 (s.after512 e rs) = none := congrArg (lifeFault .digestHash) hlife
    rw [exec_of_verdict_none hpass]
    simp [completed, State.after512]

theorem execAll_cons {i : Instr} {s t : State} (h : exec i s = .next t) (is : List Instr) :
    execAll (i :: is) s = execAll is t := by
  simp [execAll, h]

section Sequence
variable {w c : Nat} (U : HashUnit w c) (s : State)

/-- The message the chunks of caller memory make up. -/
def chunkBytes (m : Memory) (chunks : List (Nat × Nat)) : List Byte :=
  chunks.flatMap fun x => memRead m x.1 x.2

/-- From an engine that takes input, the chunks leave what their bytes at once would leave (R131). -/
theorem execAll_ingest_finalize_digest {iv : HashState w} {e : Engine w c} (he : e.Inv U.family iv)
    (hopen : e.life.isOpen) (rs : List Response) {chunks : List (Nat × Nat)}
    (hread : ∀ x ∈ chunks, Readable s.params.holes x.1 x.2)
    (hfit : e.count.toNat + (chunkBytes s.mem chunks).length ≤ U.family.maxCount) :
    let e' := finish U.family (ingest U.family e (chunkBytes s.mem chunks))
    execAll (chunks.map (fun x => U.ingestCmd x.1 x.2) ++ [U.finalizeCmd, U.digestCmd])
      (U.after s e rs) = .next (U.after s { e' with life := .finalized }
        (rs ++ List.replicate (chunks.length + 1) (.ok []) ++ [.ok (digest (U.dlen s.params) e'.h)])) := by
  induction chunks generalizing e rs with
  | nil =>
    rw [chunkBytes, List.flatMap_nil, ingest_nil he.bufShort, List.map_nil, List.nil_append,
      execAll_cons (U.exec_finalize s rs hopen), execAll_cons (U.exec_digest s _ rfl)]
    rfl
  | cons x chunks ih =>
    obtain ⟨hx, hrest⟩ := List.forall_mem_cons.mp hread
    have hbytes : chunkBytes s.mem (x :: chunks) = memRead s.mem x.1 x.2 ++ chunkBytes s.mem chunks := rfl
    rw [hbytes, List.length_append, memRead_length] at hfit
    have hfirst : e.count.toNat + x.2 ≤ U.family.maxCount := by omega
    have hcount : (addCount e.count x.2).toNat = e.count.toNat + x.2 :=
      addCount_toNat (hfirst.trans_lt U.maxCount_lt)
    have hnext := he.ingest hopen (data := memRead s.mem x.1 x.2) (by rwa [memRead_length]) U.maxCount_lt
    rw [List.map_cons, List.cons_append, execAll_cons (U.exec_ingest s rs hopen hx hfirst),
      ih hnext (.inr rfl) _ hrest (by simp [hcount]; omega)]
    simp only [ingest_with_life, finish_with_life, ingest_ingest he.bufShort, hbytes]
    simp [List.replicate_succ]

/-- The sequence ends with the whole hash, whatever the state it starts in (R147). -/
theorem execAll_wholeHash {chunks : List (Nat × Nat)}
    (hread : ∀ x ∈ chunks, Readable s.params.holes x.1 x.2)
    (hfit : (chunkBytes s.mem chunks).length ≤ U.family.maxCount) :
    ∃ e, execAll (U.resetCmd :: chunks.map (fun x => U.ingestCmd x.1 x.2) ++
        [U.finalizeCmd, U.digestCmd]) s = .next (U.after s e
      (List.replicate (chunks.length + 2) (.ok []) ++
        [.ok (hashMessage U.family (U.dlen s.params) (U.iv s.params) (chunkBytes s.mem chunks))])) := by
  rw [List.cons_append, execAll_cons (U.exec_reset s),
    execAll_ingest_finalize_digest U s (Engine.initial_inv U.blockBytes_pos) (.inl rfl) _ hread
      (by simpa [Engine.initial] using hfit),
    digest_finish_ingest U.blockBytes_pos _ _ (hfit.trans_lt U.maxCount_lt)]
  exact ⟨_, rfl⟩

end Sequence

/-- Settles O40: the sequence of unit 0 changes its engine and the responses alone. -/
theorem wholeHash256 : Obligations.WholeHash256 := by
  intro s chunks hread msg hmsg
  obtain ⟨e, hexec⟩ := execAll_wholeHash hashUnit256 s hread hmsg
  exact ⟨_, hexec, (List.append_assoc ..).symm, rfl, rfl, rfl, rfl⟩

/-- Settles O41: the sequence of unit 1 changes its engine and the responses alone. -/
theorem wholeHash512 : Obligations.WholeHash512 := by
  intro s chunks hread msg hmsg
  obtain ⟨e, hexec⟩ := execAll_wholeHash hashUnit512 s hread hmsg
  exact ⟨_, hexec, (List.append_assoc ..).symm, rfl, rfl, rfl, rfl⟩

end Sys2Proof.Machine

/-!
PROOFS. The statements of spec/43_sha256_compress.md: the compression function round by round (R160 to R166). What
does not turn on the width of the words is said of every mixer.
-/

namespace Sys2Proof.Machine

/-! ### The sigma functions of unit 0 over the library's rotation and shift (R162) -/

/-- R19's formula is the library's shift. -/
theorem shr_eq_ushiftRight {w : Nat} (x : BitVec w) (n : Nat) : shr x n = x >>> n := by
  apply BitVec.eq_of_toNat_eq
  rw [shr, BitVec.toNat_ofNat, BitVec.toNat_ushiftRight, Nat.shiftRight_eq_div_pow,
    Nat.mod_eq_of_lt ((Nat.div_le_self _ _).trans_lt x.isLt)]

theorem bsig0x32_eq_rotateRight (x : Word32) :
    bsig0x32 x = x.rotateRight 2 ^^^ x.rotateRight 13 ^^^ x.rotateRight 22 := by
  simp only [bsig0x32, rotr_eq_rotateRight, Nat.reduceLT]

theorem bsig1x32_eq_rotateRight (x : Word32) :
    bsig1x32 x = x.rotateRight 6 ^^^ x.rotateRight 11 ^^^ x.rotateRight 25 := by
  simp only [bsig1x32, rotr_eq_rotateRight, Nat.reduceLT]

theorem ssig0x32_eq_rotateRight (x : Word32) :
    ssig0x32 x = x.rotateRight 7 ^^^ x.rotateRight 18 ^^^ x >>> 3 := by
  simp only [ssig0x32, rotr_eq_rotateRight, shr_eq_ushiftRight, Nat.reduceLT]

theorem ssig1x32_eq_rotateRight (x : Word32) :
    ssig1x32 x = x.rotateRight 17 ^^^ x.rotateRight 19 ^^^ x >>> 10 := by
  simp only [ssig1x32, rotr_eq_rotateRight, shr_eq_ushiftRight, Nat.reduceLT]

/-! ### The schedule and the rounds of a mixer -/

section Mixer
variable {w : Nat} (m : Mixer w)

/-- A message word is the number its bytes make: `w / 8` bytes fit in a word (R15, R161, R181). -/
theorem messageWords_toNat (blk : List Byte) {t : Nat} (ht : t < 16) :
    ((messageWords w blk).getD t 0).toNat = be ((blk.drop (w / 8 * t)).take (w / 8)) := by
  have hfit : be ((blk.drop (w / 8 * t)).take (w / 8)) < 2 ^ w := calc
    _ < 256 ^ ((blk.drop (w / 8 * t)).take (w / 8)).length := be_lt _
    _ ≤ 256 ^ (w / 8) := Nat.pow_le_pow_right (by decide) (List.length_take_le _ _)
    _ = 2 ^ (8 * (w / 8)) := (pow_mul 2 8 _).symm
    _ ≤ 2 ^ w := Nat.pow_le_pow_right (by decide) (Nat.mul_div_le w 8)
  simp [messageWords, loadBE, List.getD_eq_getElem?_getD, ht, Nat.mul_comm t, Nat.mod_eq_of_lt hfit]

theorem schedule_length (hns : 16 ≤ m.ns) (blk : List Byte) : (schedule m blk).length = m.ns := by
  rw [schedule, extendSchedule_length, messageWords_length]
  omega

/-- The first sixteen schedule words are the block's (R164, R184). -/
theorem schedule_toNat_of_lt (blk : List Byte) {t : Nat} (ht : t < 16) :
    ((schedule m blk).getD t 0).toNat = be ((blk.drop (w / 8 * t)).take (w / 8)) := by
  rw [schedule, extendSchedule_keeps m _ _ (by simpa using ht), messageWords_toNat blk ht]

/-- The later ones follow the recurrence (R164, R184). -/
theorem schedule_rec (blk : List Byte) {t : Nat} (h16 : 16 ≤ t) (ht : t < m.ns) :
    (schedule m blk).getD t 0 =
      m.ssig1 ((schedule m blk).getD (t - 2) 0) + (schedule m blk).getD (t - 7) 0 +
        m.ssig0 ((schedule m blk).getD (t - 15) 0) + (schedule m blk).getD (t - 16) 0 :=
  extendSchedule_rec m _ _ (by simpa using h16) (by simp; omega) (by simp)

/-- A compression is the feed-forward of the last of its register values: they start at the state, and each is one
round of the one before (R160, R165, R166). -/
theorem compress_eq_feedForward (hns : 16 ≤ m.ns) (hk : m.k.length = m.ns) (s : HashState w)
    (blk : List Byte) :
    ∃ reg : Nat → Regs w, reg 0 = loadRegs s ∧
      (∀ t, t < m.ns →
        reg (t + 1) = hashRound m (reg t) (m.k.getD t 0, (schedule m blk).getD t 0)) ∧
      compress m s blk = feedForward s (reg m.ns) := by
  obtain ⟨reg, hstart, hstep, hlast⟩ :=
    foldl_zip_steps (hashRound m) m.k (schedule m blk) 0 0 (loadRegs s) m.ns hk
      (schedule_length m hns blk)
  exact ⟨reg, hstart, hstep, congrArg (feedForward s) hlast⟩

end Mixer

/-- Settles O42: the schedule and the register values are those of the model, read word by word. -/
theorem compress256ByRounds : Obligations.Compress256ByRounds := by
  intro h blk _
  obtain ⟨reg, hstart, hstep, hlast⟩ := compress_eq_feedForward mixer256 (by decide) rfl h blk
  refine ⟨fun t => (schedule mixer256 blk).getD t 0, reg,
    fun t ht => schedule_toNat_of_lt mixer256 blk ht, fun t h16 ht => ?_, hstart, fun t ht => ?_, hlast⟩
  · simpa only [mixer256, ssig0x32_eq_rotateRight, ssig1x32_eq_rotateRight] using
      schedule_rec mixer256 blk h16 ht
  · simpa only [hashRound, ch, maj, mixer256, bsig0x32_eq_rotateRight, bsig1x32_eq_rotateRight] using
      hstep t ht

end Sys2Proof.Machine

/-!
PROOFS. The statements of spec/44_sha512_compress.md: the compression function round by round (R180 to R186), over the
lemmas about every mixer that stand with spec/43_sha256_compress.md.
-/

namespace Sys2Proof.Machine

/-! ### The sigma functions of unit 1 over the library's rotation and shift (R182) -/

theorem bsig0x64_eq_rotateRight (x : Word64) :
    bsig0x64 x = x.rotateRight 28 ^^^ x.rotateRight 34 ^^^ x.rotateRight 39 := by
  simp only [bsig0x64, rotr_eq_rotateRight, Nat.reduceLT]

theorem bsig1x64_eq_rotateRight (x : Word64) :
    bsig1x64 x = x.rotateRight 14 ^^^ x.rotateRight 18 ^^^ x.rotateRight 41 := by
  simp only [bsig1x64, rotr_eq_rotateRight, Nat.reduceLT]

theorem ssig0x64_eq_rotateRight (x : Word64) :
    ssig0x64 x = x.rotateRight 1 ^^^ x.rotateRight 8 ^^^ x >>> 7 := by
  simp only [ssig0x64, rotr_eq_rotateRight, shr_eq_ushiftRight, Nat.reduceLT]

theorem ssig1x64_eq_rotateRight (x : Word64) :
    ssig1x64 x = x.rotateRight 19 ^^^ x.rotateRight 61 ^^^ x >>> 6 := by
  simp only [ssig1x64, rotr_eq_rotateRight, shr_eq_ushiftRight, Nat.reduceLT]

/-! ### The compression function of unit 1 -/

/-- Settles O43: the schedule and the register values are those of the model, which takes 80 schedule words and 80
rounds in unit 1 (R184, R185). -/
theorem compress512ByRounds : Obligations.Compress512ByRounds := by
  intro h blk _
  obtain ⟨reg, hstart, hstep, hlast⟩ := compress_eq_feedForward mixer512 (by decide) rfl h blk
  refine ⟨fun t => (schedule mixer512 blk).getD t 0, reg,
    fun t ht => schedule_toNat_of_lt mixer512 blk ht, fun t h16 ht => ?recurrence, hstart,
    fun t ht => ?round, hlast⟩
  case recurrence =>
    simpa only [mixer512, ssig0x64_eq_rotateRight, ssig1x64_eq_rotateRight] using
      schedule_rec mixer512 blk h16 ht
  case round =>
    simpa only [hashRound, ch, maj, mixer512, bsig0x64_eq_rotateRight, bsig1x64_eq_rotateRight] using
      hstep t ht

end Sys2Proof.Machine

/-!
PROOFS. The statements of spec/45_tuple_encoding.md: the length encoder as a command (R200 to R204), its inverse
(R212), the commands of unit 2 (R205 to R208) and the stream of a tuple (R209, R210).
-/

namespace Sys2Proof.Machine

/-! ### RESET.TUP and DIGEST.TUP (R207, R208) -/

/-- Settles O25: RESET.TUP has no check to fail, and `XReset` empties any stream. -/
theorem resetTupCompletes : Obligations.ResetTupCompletes :=
  ⟨fun _ _ => decode_of_commandWord (i := .resetTup) (descriptor_cw ..),
    fun s => ⟨exec_of_verdict_none rfl, xStream_append s.xlog .xReset⟩⟩

theorem lifeFault_digestTup_of_ne_faulted {l : Life} (h : l ≠ .faulted) :
    lifeFault .digestTup l = none := by
  cases l
  case faulted => exact absurd rfl h
  all_goals rfl

/-- Settles O29: the check of R100's table decides. -/
theorem digestTupCompletes : Obligations.DigestTupCompletes :=
  ⟨fun _ _ => decode_of_commandWord (i := .digestTup) (descriptor_cw ..), fun _ =>
    ⟨fun hlife => exec_of_verdict_none (i := .digestTup) (lifeFault_digestTup_of_ne_faulted hlife),
      fun hlife => exec_of_verdict_some (i := .digestTup) (congrArg (lifeFault .digestTup) hlife)⟩⟩

/-! ### FINALIZE.TUP and NEXTDATA (R205, R206) -/

section TupleCommands
variable {s : State}

theorem exec_finalizeTup_of_isOpen (hopen : s.tup.life.isOpen) :
    exec .finalizeTup s = .next (completed .finalizeTup s) :=
  exec_of_verdict_none (i := .finalizeTup) (lifeFault_finalize_of_isOpen hopen)

/-- Where the lifecycle lets a NEXTDATA go on, the range decides. -/
theorem verdict_nextdata_of_isOpen (hopen : s.tup.life.isOpen) (a l : Nat) :
    verdict (.nextdata a l) s = checkFault .addrRange (readable s.params.holes a l) := by
  rw [verdict, lifeFault_ingest_of_isOpen hopen]
  rfl

theorem exec_nextdata_of_readable (hopen : s.tup.life.isOpen) {a l : Nat}
    (hread : Readable s.params.holes a l) :
    exec (.nextdata a l) s = .next (completed (.nextdata a l) s) :=
  exec_of_verdict_none ((verdict_nextdata_of_isOpen hopen a l).trans (checkFault_of_readable hread))

/-- A fault of the lifecycle comes before the check of the range (R96). -/
theorem exec_nextdata_of_lifeFault {f : FaultCode} (h : lifeFault .ingest s.tup.life = some f)
    (a l : Nat) : exec (.nextdata a l) s = .next (s.raise (some .tup) f) := by
  have hverdict : verdict (.nextdata a l) s = some f := by
    rw [verdict, h]
    rfl
  exact exec_of_verdict_some hverdict

end TupleCommands

/-- Settles O50: the check of R100's table decides. -/
theorem finalizeTupCompletes : Obligations.FinalizeTupCompletes := by
  refine ⟨fun _ _ => decode_of_commandWord (i := .finalizeTup) (descriptor_cw ..), fun s => ⟨?_, ?_, ?_⟩⟩
  · exact exec_finalizeTup_of_isOpen
  · exact fun hlife => exec_of_verdict_some (i := .finalizeTup) (congrArg (lifeFault .finalize) hlife)
  · exact fun hlife => exec_of_verdict_some (i := .finalizeTup) (congrArg (lifeFault .finalize) hlife)

/-- Settles O49: the check of R100's table decides, then the check of the range. -/
theorem nextdataCompletes : Obligations.NextdataCompletes := by
  refine ⟨fun a l ha hl => decode_descriptor_commandWord hl ha (.nextdata a l),
    fun s a l => ⟨?_, ?_, ?_, ?_⟩⟩
  · exact fun hopen hread => exec_nextdata_of_readable hopen hread
  · exact fun hlife => exec_nextdata_of_lifeFault (congrArg (lifeFault .ingest) hlife) a l
  · exact fun hlife => exec_nextdata_of_lifeFault (congrArg (lifeFault .ingest) hlife) a l
  · exact fun hopen hread => exec_of_verdict_some
      ((verdict_nextdata_of_isOpen hopen a l).trans (checkFault_of_not_readable hread))

/-! ### LENC and RENC (R203, R204) -/

/-- Settles O46: LENC has no check to fail, and its payload is built on `MinBE(n)`. The address field, which the
format ignores, may hold anything. -/
theorem lencCompletes : Obligations.LencCompletes := by
  refine ⟨fun a n hn => ?decoded, fun s n hn => ⟨minBE n, exec_of_verdict_none rfl, minBE_spec hn⟩⟩
  calc decode (descriptor n a 0x00000206) = .ok (.lenc (descriptor n a 0x00000206).l) :=
        decode_of_commandWord (i := .lenc n) (descriptor_cw ..)
    _ = .ok (.lenc n) := by rw [descriptor_l hn]

/-- Settles O47: as for LENC, the length byte being the last. -/
theorem rencCompletes : Obligations.RencCompletes := by
  refine ⟨fun a n hn => ?decoded, fun s n hn => ⟨minBE n, exec_of_verdict_none rfl, minBE_spec hn⟩⟩
  calc decode (descriptor n a 0x00000207) = .ok (.renc (descriptor n a 0x00000207).l) :=
        decode_of_commandWord (i := .renc n) (descriptor_cw ..)
    _ = .ok (.renc n) := by rw [descriptor_l hn]

/-! ### The inverses of the length encoders (R212) -/

section Decoders
variable {n : Nat} (h : n < 256 ^ 255) (r : List Byte)
include h

/-- The length byte holds the length of `MinBE(n)` wherever the encoders are defined (R201). -/
theorem lengthByte_toNat : (BitVec.ofNat 8 (minBE n).length).toNat = (minBE n).length := by
  have hlength := minBELen_le_of_lt (k := 255) (by decide) h
  rw [BitVec.toNat_ofNat, minBE_length]
  exact Nat.mod_eq_of_lt (by omega)

theorem leftDecode_leftEncode_append : leftDecode (leftEncode n ++ r) = (n, r) := by
  have hbyte := lengthByte_toNat h
  simp only [leftDecode, leftEncode, List.cons_append, List.headD_cons, hbyte, List.drop_succ_cons,
    List.drop_zero, Nat.add_comm 1, List.take_left, List.drop_left, be_minBE]

theorem rightDecode_append_rightEncode : rightDecode (r ++ rightEncode n) = (r, n) := by
  have hbyte := lengthByte_toNat h
  have hstart : (r ++ rightEncode n).length - 1 - (minBE n).length = r.length := by
    simp only [List.length_append, rightEncode_length, minBE_length]
    omega
  have hlast : ((r ++ rightEncode n).getLastD 0).toNat = (minBE n).length := by
    rw [rightEncode, ← List.append_assoc, List.getLastD_concat, hbyte]
  simp only [rightDecode, hlast, hstart, List.take_left, List.drop_left]
  rw [rightEncode, List.take_left, be_minBE]

end Decoders

/-- Settles O48: the length byte says where `MinBE(n)` ends or begins. -/
theorem lengthDecodersInvert : Obligations.LengthDecodersInvert :=
  ⟨fun _ r h => leftDecode_leftEncode_append h r, fun _ r h => rightDecode_append_rightEncode h r⟩

/-! ### The tuple encoding is injective (R209)

As R209 says it: `rightDecode` strips the end of the stream and gives the output length, and `leftDecode` from the
front of what is left gives each element in turn. -/

/-- Bit lengths are far below the limit of the encoders: an element has fewer than `2^64` bytes, an output fewer than
`2^61`. -/
theorem bitLength_lt {n : Nat} (h : n < 2 ^ 64) : 8 * n < 256 ^ 255 :=
  calc 8 * n < 2 ^ 67 := by omega
    _ ≤ 256 ^ 255 := by norm_num

theorem leftDecode_elementBytes_append {e : List Byte} (h : e.length < 2 ^ 64) (r : List Byte) :
    leftDecode (elementBytes e ++ r) = (8 * e.length, e ++ r) := by
  rw [elementBytes, List.append_assoc, leftDecode_leftEncode_append (bitLength_lt h)]

theorem rightDecode_tupleStream (es : List (List Byte)) {n : Nat} (h : n < 2 ^ 61) :
    rightDecode (tupleStream es n) = (es.flatMap elementBytes, 8 * n) :=
  rightDecode_append_rightEncode (bitLength_lt (by omega)) _

/-- An element is told from what follows it by its length. -/
theorem elementBytes_append_injective {e e' r r' : List Byte} (he : e.length < 2 ^ 64)
    (he' : e'.length < 2 ^ 64) (h : elementBytes e ++ r = elementBytes e' ++ r') : e = e' ∧ r = r' := by
  have hdecoded := congrArg leftDecode h
  rw [leftDecode_elementBytes_append he, leftDecode_elementBytes_append he'] at hdecoded
  obtain ⟨hbits, hrest⟩ := Prod.mk.inj hdecoded
  exact List.append_inj hrest (by omega)

theorem elementBytes_ne_nil (e : List Byte) : elementBytes e ≠ [] :=
  List.append_ne_nil_of_left_ne_nil (leftEncode_ne_nil _) e

theorem flatMap_elementBytes_injective {es es' : List (List Byte)} (h : ∀ e ∈ es, e.length < 2 ^ 64)
    (h' : ∀ e ∈ es', e.length < 2 ^ 64) (heq : es.flatMap elementBytes = es'.flatMap elementBytes) :
    es = es' := by
  induction es generalizing es' with
  | nil =>
    cases es' with
    | nil => rfl
    | cons e' es' => simp [elementBytes_ne_nil] at heq
  | cons e es ih =>
    cases es' with
    | nil => simp [elementBytes_ne_nil] at heq
    | cons e' es' =>
      obtain ⟨he, hes⟩ := List.forall_mem_cons.mp h
      obtain ⟨he', hes'⟩ := List.forall_mem_cons.mp h'
      obtain ⟨rfl, hrest⟩ := elementBytes_append_injective he he' heq
      rw [ih hes hes' hrest]

/-- Settles O52: the end of the stream gives the output length, and the rest the elements. -/
theorem tupleStreamInjective : Obligations.TupleStreamInjective := by
  intro es es' n n' hes hes' hn hn' heq
  have hdecoded := congrArg rightDecode heq
  rw [rightDecode_tupleStream es hn, rightDecode_tupleStream es' hn'] at hdecoded
  obtain ⟨helements, hbits⟩ := Prod.mk.inj hdecoded
  exact ⟨flatMap_elementBytes_injective hes hes' helements, by omega⟩

/-! ### The stream of a tuple hashed by commands (R95, R209, R210) -/

/-- `t` is `s` after a tuple was taken in and closed: an `OK` for each of `answers` commands, the tuple's stream
behind the stream absorbed before, `XFinalize` as the last event, and units 0 and 1 and caller memory as before. -/
structure TupleClosed (s : State) (es : List (List Byte)) (answers : Nat) (t : State) : Prop where
  responses : t.responses = s.responses ++ List.replicate answers (.ok [])
  stream : xStream t.xlog = xStream s.xlog ++ tupleStream es s.params.tup.outlenBytes.val
  closed : t.xlog.getLast? = some .xFinalize
  life : t.tup.life = .finalized
  e256 : t.e256 = s.e256
  e512 : t.e512 = s.e512
  mem : t.mem = s.mem

theorem tupleStream_cons (e : List Byte) (es : List (List Byte)) (outlen : Nat) :
    tupleStream (e :: es) outlen = elementBytes e ++ tupleStream es outlen := by
  simp [tupleStream]

theorem xStream_completed_finalizeTup (s : State) :
    xStream (completed .finalizeTup s).xlog =
      xStream s.xlog ++ tupleStream [] s.params.tup.outlenBytes.val := by
  simp [completed, xStream, absorb, tupleStream]

/-- A NEXTDATA puts its element into the stream (R205). -/
theorem xStream_completed_nextdata (s : State) (a l : Nat) :
    xStream (completed (.nextdata a l) s).xlog = xStream s.xlog ++ elementBytes (memRead s.mem a l) := by
  simp [completed, xStream, absorb, elementBytes]

/-- FINALIZE.TUP closes a tuple of no element. -/
theorem tupleClosed_completed_finalizeTup (s : State) :
    TupleClosed s [] 1 (completed .finalizeTup s) where
  responses := rfl
  stream := xStream_completed_finalizeTup s
  closed := by simp [completed]
  life := rfl
  e256 := rfl
  e512 := rfl
  mem := rfl

/-- A NEXTDATA in front of a closed tuple puts its element in front of the tuple. -/
theorem TupleClosed.nextdata {s t : State} {a l : Nat} {es : List (List Byte)} {answers : Nat}
    (h : TupleClosed (completed (.nextdata a l) s) es answers t) :
    TupleClosed s (memRead s.mem a l :: es) (answers + 1) t where
  responses := h.responses.trans (by simp [completed, List.replicate_succ])
  stream := by
    rw [h.stream, xStream_completed_nextdata, tupleStream_cons, List.append_assoc]
    rfl
  closed := h.closed
  life := h.life
  e256 := h.e256
  e512 := h.e512
  mem := h.mem

/-- From a unit that takes elements, in any state, the elements and FINALIZE.TUP take in and close their tuple. -/
theorem execAll_nextdata_finalizeTup {s : State} (hopen : s.tup.life.isOpen) {elems : List (Nat × Nat)}
    (hread : ∀ e ∈ elems, Readable s.params.holes e.1 e.2) :
    ∃ t, execAll (elems.map (fun e => .nextdata e.1 e.2) ++ [.finalizeTup]) s = .next t ∧
      TupleClosed s (elems.map fun e => memRead s.mem e.1 e.2) (elems.length + 1) t := by
  induction elems generalizing s with
  | nil =>
    exact ⟨_, execAll_cons (exec_finalizeTup_of_isOpen hopen) [], tupleClosed_completed_finalizeTup s⟩
  | cons e elems ih =>
    obtain ⟨he, hrest⟩ := List.forall_mem_cons.mp hread
    have hfirst := exec_nextdata_of_readable hopen he
    obtain ⟨t, hexec, hclosed⟩ := ih (s := completed (.nextdata e.1 e.2) s) (.inr rfl) hrest
    exact ⟨t, (execAll_cons hfirst _).trans hexec, hclosed.nextdata⟩

/-- Settles O51: RESET.TUP opens the unit with an empty stream, and the rest of the sequence closes the tuple. -/
theorem tupleStreamOfCommands : Obligations.TupleStreamOfCommands := by
  intro s elems hread
  have hreset : exec .resetTup s = .next (completed .resetTup s) := exec_of_verdict_none rfl
  have hempty : xStream (completed .resetTup s).xlog = [] := xStream_append s.xlog .xReset
  obtain ⟨t, hexec, hclosed⟩ :=
    execAll_nextdata_finalizeTup (s := completed .resetTup s) (.inl rfl) hread
  refine ⟨t, (execAll_cons hreset _).trans hexec, ?responses, ?stream, hclosed.closed, hclosed.life,
    hclosed.e256, hclosed.e512, hclosed.mem⟩
  case responses => exact hclosed.responses.trans (List.append_assoc ..)
  case stream => rw [hclosed.stream, hempty, List.nil_append]; rfl

end Sys2Proof.Machine

/-!
PROOFS. The statements of spec/60_exceptions.md: every command runs to its response (R240, R244, R266), the idle step
and the reset pin (R245, R261), what a fault leaves unchanged (R230, R231, R238), and the Faulted unit, which only its
RESET or the pin brings back and whose data no command shows (R238, R239).
-/

namespace Sys2Proof.Machine

/-! ### Every input is answered (R240, R245, R261, R266) -/

theorem step_of_idle {s : State} (h : s.pending = []) : step s = .next s := by simp [step, h]

theorem step_of_resetPin {s : State} {rest : List HostInput} (h : s.pending = .resetPin :: rest) :
    step s = .next (pulseResetPin { s with pending := rest }) := by
  rw [← take_of_pending h]
  simp [step, h]

theorem step_answers (s : State) : ∃ t, step s = .next t := by
  cases h : s.pending with
  | nil => exact ⟨s, step_of_idle h⟩
  | cons x rest =>
    cases x with
    | command d =>
      obtain ⟨t, -, ht, -⟩ := step_responds h
      exact ⟨t, ht⟩
    | store addr bytes => exact ⟨_, step_of_store h⟩
    | resetPin => exact ⟨_, step_of_resetPin h⟩

/-- Settles O7: a command's verdict decides which next state it answers, and the other inputs have one each. -/
theorem stepAlwaysAnswers : Obligations.StepAlwaysAnswers :=
  ⟨step_answers, fun i s => ⟨_, exec_eq_conclude i s⟩⟩

/-- Settles O9: with nothing pending nothing is taken, and the pin resets one unit after another. -/
theorem idleAndResetPin : Obligations.IdleAndResetPin :=
  ⟨fun _ h => step_of_idle h, fun _ _ h => step_of_resetPin h⟩

/-! ### Faults are precise (R230, R231, R238) -/

/-- The codes that set `LIFE <- Faulted` (R238). -/
theorem FaultCode.marks_iff (f : FaultCode) :
    f.marks = true ↔ f = .misuse ∨ f = .addrRange ∨ f = .lenOverflow := by
  cases f <;> simp [FaultCode.marks]

/-- Settles O19: a command that ran has all its effects, and raising a fault keeps everything but one `LIFE`. -/
theorem faultsArePrecise : Obligations.FaultsArePrecise := by
  intro i s t hexec
  rcases exec_cases hexec with hran | ⟨f, -, rfl⟩
  · exact .inl (ran_completed hran)
  · refine .inr ⟨f, raise_responses .., raise_e256 .., raise_e512 .., raise_xlog .., raise_mem ..,
      raise_params .., raise_pending .., fun u => ?_⟩
    simp only [raise_life, f.marks_iff]

/-! ### The way out of Faulted (R239, R261) -/

section LeavesFaulted
variable {s t : State} {u : UnitId}

/-- No fault brings a Faulted unit back: it marks the unit again or changes no `LIFE`. -/
theorem raise_life_of_faulted (h : s.life u = .faulted) (v : Option UnitId) (f : FaultCode) :
    (s.raise v f).life u = .faulted := by
  rw [raise_life, h, ite_self]

/-- The effects of a command bring a Faulted unit back only where the command is the unit's RESET: the others need a
unit that is Fresh or Accepting to move its `LIFE`. -/
theorem exec_leaves_faulted {i : Instr} (hexec : exec i s = .next t) (hs : s.life u = .faulted)
    (ht : t.life u ≠ .faulted) : t.life u = .fresh ∧ i = resetCommand u := by
  rcases exec_cases hexec with hran | ⟨f, -, rfl⟩
  · rcases ran_life hran u with hsame | hreset | ⟨-, hopen⟩ | ⟨-, hopen⟩
    · exact absurd (hsame.trans hs) ht
    · exact hreset
    · exact absurd hs (Life.isOpen_ne_faulted hopen)
    · exact absurd hs (Life.isOpen_ne_faulted hopen)
  · exact absurd (raise_life_of_faulted hs _ f) ht

end LeavesFaulted

/-- Settles O18: a command of the unit's RESET and the pin lead to Fresh, and every other step stays in Faulted. -/
theorem onlyResetLeavesFaulted : Obligations.OnlyResetLeavesFaulted := by
  intro s t u hstep hs ht
  have htake : s.take.life u = .faulted := (take_life s u).trans hs
  rcases step_cases hstep with ⟨-, rfl⟩ | ⟨d, rest, i, hpending, hdecode, hexec⟩ |
    ⟨d, rest, e, -, -, rfl⟩ | ⟨a, bytes, rest, -, rfl⟩ | ⟨rest, hpending, rfl⟩
  · exact absurd hs ht
  · obtain ⟨hfresh, rfl⟩ := exec_leaves_faulted hexec htake ht
    exact ⟨hfresh, .inl ⟨d, rest, hpending, hdecode⟩⟩
  · exact absurd (raise_life_of_faulted htake none .illegalCmd) ht
  · exact absurd ((hostStore_life ..).trans htake) ht
  · exact ⟨pulseResetPin_life .., .inr ⟨rest, hpending⟩⟩

/-! ### The data of a Faulted engine (R238, R239)

A command that addresses a Faulted unit is the unit's RESET or is answered UNIT_FAULTED (`verdict_of_faulted`), and a
command that does not looks at none of the unit's state. Both engines are treated as one: what is said below holds of
every replacement of a unit. -/

theorem lifeFault_faulted {r : LifeRow} (h : r ≠ .reset) : lifeFault r .faulted = some .unitFaulted := by
  cases r
  case reset => exact absurd rfl h
  all_goals rfl

/-- `LIFE` is looked at before the operands (R96), so UNIT_FAULTED comes before any other fault. -/
theorem verdict_of_faulted {i : Instr} {s : State} {u : UnitId} (hu : addressedUnit i = some u)
    (hs : s.life u = .faulted) : i = resetCommand u ∨ verdict i s = some .unitFaulted := by
  cases i <;> cases hu
  case reset256 | reset512 | resetTup => exact .inl rfl
  all_goals
    simp only [State.life] at hs
    exact .inr (by simp [verdict, hs, lifeFault_faulted])

theorem exec_resetCommand (u : UnitId) (s : State) :
    exec (resetCommand u) s = .next (completed (resetCommand u) s) := by
  cases u <;> rfl

/-- `put` replaces the unit `u` by another one and does nothing else: what concerns other units commutes with it, and
RESET of `u` undoes it. -/
structure Replaces (u : UnitId) (put : State → State) : Prop where
  params_eq (s : State) : (put s).params = s.params
  agreeOn (s : State) {v : Option UnitId} (h : v ≠ some u) : (put s).AgreeOn s v
  raise_comm (s : State) {v : Option UnitId} (h : v ≠ some u) (f : FaultCode) :
    (put s).raise v f = put (s.raise v f)
  completed_comm (s : State) {i : Instr} (h : addressedUnit i ≠ some u) :
    completed i (put s) = put (completed i s)
  completed_reset (s : State) : completed (resetCommand u) (put s) = completed (resetCommand u) s

theorem replaces_e256 (e : Engine 32 64) : Replaces .e256 fun s => { s with e256 := e } where
  params_eq _ := rfl
  agreeOn s v h := by
    rcases v with _ | _ | _ | _
    case some.e256 => exact absurd rfl h
    all_goals simp [State.AgreeOn]
  raise_comm s v h f := by
    rcases v with _ | _ | _ | _
    case some.e256 => exact absurd rfl h
    all_goals cases f <;> rfl
  completed_comm s i h := by
    cases i
    case reset256 | ingest256 | finalize256 | digest256 => exact absurd rfl h
    all_goals rfl
  completed_reset _ := rfl

theorem replaces_e512 (e : Engine 64 128) : Replaces .e512 fun s => { s with e512 := e } where
  params_eq _ := rfl
  agreeOn s v h := by
    rcases v with _ | _ | _ | _
    case some.e512 => exact absurd rfl h
    all_goals simp [State.AgreeOn]
  raise_comm s v h f := by
    rcases v with _ | _ | _ | _
    case some.e512 => exact absurd rfl h
    all_goals cases f <;> rfl
  completed_comm s i h := by
    cases i
    case reset512 | ingest512 | finalize512 | digest512 => exact absurd rfl h
    all_goals rfl
  completed_reset _ := rfl

section Replaces
variable {u : UnitId} {put : State → State} {i : Instr}

/-- A command that addresses another unit commutes with the replacement. -/
theorem Replaces.exec_other (hput : Replaces u put) {s t : State} (hexec : exec i s = .next t)
    (hu : addressedUnit i ≠ some u) : exec i (put s) = .next (put t) := by
  rw [exec_eq_conclude] at hexec ⊢
  obtain rfl := Host.Outcome.next.inj hexec
  rw [verdict_congr (hput.params_eq s) (hput.agreeOn s hu)]
  cases verdict i s with
  | none => exact congrArg _ (hput.completed_comm s hu)
  | some f => exact congrArg _ (hput.raise_comm s hu f)

/-- A command that addresses a Faulted unit resets it, or answers UNIT_FAULTED and changes nothing else (R233,
R238). -/
theorem exec_of_faulted {s t : State} (hexec : exec i s = .next t) (hu : addressedUnit i = some u)
    (hs : s.life u = .faulted) : i = resetCommand u ∨ t = s.answer (.fault .unitFaulted) := by
  refine (verdict_of_faulted hu hs).imp_right fun hv => ?_
  rw [exec_of_verdict_some hv, raise_unitFaulted] at hexec
  exact (Host.Outcome.next.inj hexec).symm

/-- A command on a state whose Faulted unit is replaced by another Faulted one. -/
theorem Replaces.exec_faulted (hput : Replaces u put) {s t t' : State} (hs : s.life u = .faulted)
    (hs' : (put s).life u = .faulted) (hexec : exec i s = .next t) (hexec' : exec i (put s) = .next t') :
    t' = t ∧ i = resetCommand u ∨ t' = put t ∧ t.AgreeOn s (some u) := by
  by_cases hu : addressedUnit i = some u
  · by_cases hi : i = resetCommand u
    · subst hi
      rw [exec_resetCommand, hput.completed_reset, ← exec_resetCommand, hexec] at hexec'
      exact .inl ⟨(Host.Outcome.next.inj hexec').symm, rfl⟩
    · obtain rfl := (exec_of_faulted hexec hu hs).resolve_left hi
      obtain rfl := (exec_of_faulted hexec' hu hs').resolve_left hi
      exact .inr ⟨hput.raise_comm s (v := none) nofun .unitFaulted,
        raise_frame s (v := none) .unitFaulted nofun⟩
  · have hother := hput.exec_other hexec hu
    rw [hexec'] at hother
    exact .inr ⟨Host.Outcome.next.inj hother, exec_frame hexec hu⟩

end Replaces

/-- Settles O22: unit by unit, replacing a Faulted engine by another Faulted one. -/
theorem faultedDataUnobservable : Obligations.FaultedDataUnobservable :=
  ⟨fun _ _ _ _ e hs he => (replaces_e256 e).exec_faulted hs he,
    fun _ _ _ _ e hs he => (replaces_e512 e).exec_faulted hs he⟩

end Sys2Proof.Machine

/-!
PROOFS. The statement of spec/70_reset_and_hazards.md about RESET of the two hash engines (R260, R262).
-/

namespace Sys2Proof.Machine

/-! ### RESET restores the power-on engine (R102, R103, R262) -/

/-- Settles O26: O23 and O24 give the state a RESET leaves, and its engine holds the four fields that power-on gives
it under the same parameters. -/
theorem resetEqualsPowerOn : Obligations.ResetEqualsPowerOn := by
  intro s
  obtain ⟨-, hreset256⟩ := reset256Completes
  obtain ⟨-, hreset512⟩ := reset512Completes
  exact ⟨⟨_, hreset256 s, rfl⟩, ⟨_, hreset512 s, rfl⟩⟩

end Sys2Proof.Machine
